-- ==== Sys2Proof/Word.lean ====
section
/-! DEFINITION. The words the rules speak of: 32-bit command words, bytes, bit strings and byte buffers. -/

namespace Sys2Proof

/-- A command word of the port (30_encoding.md R46). -/
abbrev Word := BitVec 32

/-- A byte, also a channel value (00_scope.md R6, 10_state.md R18). -/
abbrev Byte := BitVec 8

/-- A bit string in transmission order, the first-sent bit at the head (00_scope.md R3). -/
abbrev BitString := List Bool

/-- A byte sequence in transmission order, the first-sent byte at the head (00_scope.md R6, 20_memory.md R31). -/
abbrev Buffer := List Byte

end Sys2Proof
end

