-- ==== Sys2Proof/Config.lean ====
section
/-! DEFINITION. What is fixed for one instance of the block (10_state.md R10), and what the spec leaves open about
the transport. -/

namespace Sys2Proof

/-- The three channels of a pixel (10_state.md R19). -/
inductive Channel where
  | red
  | green
  | blue
deriving DecidableEq, Repr

/-- The configuration record of an instance (10_state.md R10), with the reserved bits of its two words CFG0 and CFG1,
which WF5 of R12 speaks of. `n` and `padLen` are counts (log 21). -/
structure Config where
  /-- N: physical bits per logical bit, CFG0[3:0]. -/
  n : Nat
  /-- PAT0: the pattern sent for logical 0, CFG0[15:8]. -/
  pat0 : Byte
  /-- PAT1: the pattern sent for logical 1, CFG0[23:16]. -/
  pat1 : Byte
  /-- ORDER: the channel transmission order's code, CFG0[6:4]. -/
  order : BitVec 3
  /-- PAD_LEN: padding bytes, CFG1[15:0]. -/
  padLen : Nat
  /-- CFG0[7], reserved. -/
  rsvd0Bit7 : BitVec 1
  /-- CFG0[31:24], reserved. -/
  rsvd0High : BitVec 8
  /-- CFG1[31:16], reserved. -/
  rsvd1High : BitVec 16
deriving DecidableEq, Repr

/-- The six checks of a configuration, by the names of 10_state.md R12. -/
inductive ConfigCheck where
  /-- N is not in 1..8. -/
  | wf1
  /-- A pattern does not fit in N bits. -/
  | wf2
  /-- PAT1 does not have more 1 bits than PAT0. -/
  | wf3
  /-- ORDER is 6 or 7. -/
  | wf4
  /-- A reserved bit of CFG0 or CFG1 is 1. -/
  | wf5
  /-- PAD_LEN exceeds 65535. -/
  | wf6
deriving DecidableEq, Repr

/-- The source's fixture (N = 3, "100", "110", green-red-blue) with PAD_LEN = 4: configuration A of
95_test_vectors.md section 2.1. State.reset uses it: DESIGN CHOICE, log 3. -/
def Config.fixture : Config where
  n := 3
  pat0 := 0x04
  pat1 := 0x06
  order := 2
  padLen := 4
  rsvd0Bit7 := 0
  rsvd0High := 0
  rsvd1High := 0

/-- The answer of a transport write (20_memory.md R45). -/
inductive WriteResult where
  | success
  | transportError
deriving DecidableEq, Repr, Inhabited

/-- What the host set when it set the transport up (70_reset_and_hazards.md R95, log 8). -/
structure TransportSetup where
  /-- Bytes are shifted out most significant bit first. -/
  msbFirst : Bool
  /-- The clock rate matches: N bus-clock periods approximate one protocol-bit period. The spec gives no tolerance, so
  this is the host's word (log 22). -/
  clockMatches : Bool
deriving DecidableEq, Repr

/-- FREE VALUE (log 6): the answer of the k-th transport write that is not too long (20_memory.md R45: "either answer
may come back for any write"). One source for every machine: DESIGN CHOICE, unsafe, log 25. -/
opaque Config.transportAnswer : Nat → WriteResult

/-- OPEN PARAMETER TRANSPORT_MAX_BYTES (60_exceptions.md R89, log 7), one limit for every machine (log 25). -/
opaque Config.transportMaxBytes : Nat

end Sys2Proof
end

