-- ==== Sys2Proof/Syntax.lean ====
section
/-! DEFINITION. The commands of the port, one constructor per row of spec/opcode_table.json, and the command errors. -/

namespace Sys2Proof

/-- A pixel: an ordered triple of channel values (10_state.md R19). -/
structure Pixel where
  r : Byte
  g : Byte
  b : Byte
deriving DecidableEq, Repr

/-- One command. The last three are the pseudo-commands of 30_encoding.md R56: other names of ENC_CHAIN (log 9). -/
inductive Instr where
  /-- ENC_BIT: encode one logical bit (R58). -/
  | encBit (b : Bool)
  /-- ENC_CHAN: encode one channel value (R63). -/
  | encChan (v : Byte)
  /-- ENC_PIX: encode one pixel, operands in R, G, B order (R70). -/
  | encPix (r g b : Byte)
  /-- ENC_CHAIN: build one frame buffer, padded if `p` (R74). -/
  | encChain (p : Bool) (px : List Pixel)
  /-- latch: a padding-only frame (R56). -/
  | latch
  /-- enc.empty: the empty buffer (R56). -/
  | encEmpty
  /-- enc.frame: one frame with its trailing padding (R56). -/
  | encFrame (px : List Pixel)
deriving DecidableEq, Repr

/-- The error codes (60_exceptions.md R81); their numbers are in Machine/Flags.lean. -/
inductive ErrCode where
  /-- E_BADOP: the OP field is reserved. -/
  | badOp
  /-- E_RSVD_HDR: a reserved header bit is 1. -/
  | rsvdHdr
  /-- E_RSVD_PIX: a pixel word has a nonzero byte [31:24]. -/
  | rsvdPix
deriving DecidableEq, Repr

/-- `CmdError(code, info)` (60_exceptions.md R80). -/
structure CmdError where
  code : ErrCode
  info : Word
deriving DecidableEq, Repr

/-- A line of the assembler, its operands still unchecked numbers (30_encoding.md R55, R56). -/
inductive AsmLine where
  | bit (b : Nat)
  | chan (v : Nat)
  | pix (r g b : Nat)
  | chainNoPad
  | chainPad
  | px (r g b : Nat)
  | word (x : Nat)
  | latch
  | frame
  | empty
deriving DecidableEq, Repr

/-- Why the assembler turns a text away (log 15). -/
inductive AsmError where
  /-- The first word of a line is no mnemonic of R55 or R56. -/
  | unknownMnemonic
  /-- The operands are not the numbers, or the word pad or nopad, that the mnemonic takes. -/
  | badOperands
  /-- An operand is out of its range. -/
  | operandRange
  /-- A px line follows no chain or frame line. -/
  | pxOutsideChain
  /-- More px lines than one command can carry (L_MAX). -/
  | chainTooLong
deriving DecidableEq, Repr

end Sys2Proof
end

