-- ==== Sys2Proof/Machine/State.lean ====
section
/-! DEFINITION. The state of the machine: what the spec gives the block (configuration and rx, 10_state.md), and the
model's own record of the world around it (what the host will still do, what the block answered, what reached the
transport). -/

namespace Sys2Proof.Machine

/-- A response (30_encoding.md R53). -/
inductive Response where
  /-- OkBits(g): the bit group of ENC_BIT. -/
  | okBits (g : BitString)
  /-- OkBytes(buf): the buffer of ENC_CHAN, ENC_PIX or ENC_CHAIN. -/
  | okBytes (buf : Buffer)
  /-- Err(code, info): an error, with no data. -/
  | err (code : ErrCode) (info : Word)
deriving DecidableEq, Repr

/-- What the host does to a made machine (70_reset_and_hazards.md R104), one at a time, in the order of the inbox. -/
inductive Event where
  /-- Send a word on the command port (30_encoding.md R50). -/
  | word (w : Word)
  /-- Assert the reset (70_reset_and_hazards.md R90). -/
  | reset
  /-- Set the transport up (70_reset_and_hazards.md R95). -/
  | setupTransport (t : TransportSetup)
  /-- Write a buffer to the transport in one call (20_memory.md R44). -/
  | write (buf : Buffer)
deriving DecidableEq, Repr

/-- One transport write: the buffer, the answer and the transport's set-up at that moment (20_memory.md R44, R45). -/
structure WriteRecord where
  buf : Buffer
  result : WriteResult
  config : Option TransportSetup
deriving DecidableEq, Repr

/-- The transport as the host sees it: an external sink (logs 6 and 8). -/
structure Transport where
  /-- The set-up in force, if the host made one (R95). -/
  config : Option TransportSetup
  /-- The counter the free value `Config.transportAnswer` is applied to. -/
  draws : Nat
  /-- The writes so far, oldest first. -/
  writes : List WriteRecord
deriving DecidableEq, Repr

/-- The machine's state. `cfg` and `rx` are the block's; the other fields are the model's own (logs 1, 2, 6, 8). -/
structure State where
  /-- The configuration record: constant (10_state.md R10, R13). -/
  cfg : Config
  /-- The words of the incomplete message, header first (10_state.md R16). -/
  rx : List Word
  /-- The host's events still to come, next first (log 2). -/
  inbox : List Event
  /-- The responses produced so far, oldest first (70_reset_and_hazards.md R105, log 1). -/
  responses : List Response
  /-- The transport beside the block (log 6). -/
  transport : Transport
deriving DecidableEq, Repr

/-- The block has no fault: an Err response is a defined outcome (70_reset_and_hazards.md R105). Nobody raises one. -/
inductive Fault
deriving DecidableEq, Repr

/-- Why the model gives no meaning. -/
inductive Refusal where
  /-- An instruction without a meaning. Raised by refused arms of `exec` only; there is none. Safe. -/
  | notModelled (mnemonic : String)
  /-- The configuration is ill-formed, so there is no such machine; the first failed check (10_state.md R13). Raised by
  `makeInstance`, by every step and by every meaning. Safe: R13 says no command of it has a meaning. -/
  | illFormedConfig (check : ConfigCheck)
deriving DecidableEq, Repr

/-- The machine right after reset: no message in progress (70_reset_and_hazards.md R93), no response pending (R94). The
configuration is the instance's own, which the spec does not fix: the spec's fixture, DESIGN CHOICE (log 3). -/
def State.reset : State where
  cfg := Config.fixture
  rx := []
  inbox := []
  responses := []
  transport := { config := none, draws := 0, writes := [] }

end Sys2Proof.Machine
end

