-- ==== Sys2Proof/Machine/Flags.lean ====
section
/-! DEFINITION. The block has no flags (10_state.md section 4); a response carries a status code instead, which nothing
holds (60_exceptions.md R80, R81). -/

namespace Sys2Proof.Machine

/-- The number of an error code (60_exceptions.md R81). -/
def errNumber : ErrCode → Nat
  | .badOp => 1
  | .rsvdHdr => 2
  | .rsvdPix => 3

/-- The status code of a response: 0 (OK) or the error's number (30_encoding.md R53, 60_exceptions.md R81). -/
def status : Response → Nat
  | .okBits _ => 0
  | .okBytes _ => 0
  | .err code _ => errNumber code

/-- A bit group on a word interface: `zext_32` of the pattern, its first-sent bit highest (30_encoding.md R53). -/
def groupWord (g : BitString) : Word := BitVec.ofNat 32 (g.foldl (fun acc b => 2 * acc + b.toNat) 0)

end Sys2Proof.Machine
end

