-- ==== Sys2Proof/WellFormed.lean ====
section
/-! DEFINITION. When a command is well-formed. Its operands have fixed widths (10_state.md R18: no channel value is out
of range), so the one check is the chain length (R20, R47). The checks of a configuration are in Machine/Setup.lean. -/

namespace Sys2Proof

/-- L_MAX: the longest chain one command carries (00_scope.md section 3, 30_encoding.md R47). -/
def lMax : Nat := 2 ^ 24 - 1

/-- The pixels a command carries. -/
def Instr.pixels : Instr → List Pixel
  | .encBit _ => []
  | .encChan _ => []
  | .encPix _ _ _ => []
  | .encChain _ px => px
  | .latch => []
  | .encEmpty => []
  | .encFrame px => px

/-- A command is well-formed when its chain fits the L field (10_state.md R20). -/
abbrev Instr.WellFormed (i : Instr) : Prop := i.pixels.length ≤ lMax

end Sys2Proof
end

