-- ==== Sys2Proof/Decode.lean ====
section
/-! DEFINITION. Command messages as 32-bit words (30_encoding.md Part B): fields, message length, the decoder (total, every
malformed message rejected by name) and the encoder. -/

namespace Sys2Proof

/-- `w[hi:lo]`, read as an unsigned integer (00_scope.md R4, 30_encoding.md R51). -/
def field (w : Word) (hi lo : Nat) : Nat := w.toNat / 2 ^ lo % 2 ^ (hi + 1 - lo)

/-- `w[k]` as a logical bit. -/
def bitField (w : Word) (k : Nat) : Bool := field w k k == 1

/-- The 8-bit field whose lowest bit is `lo`, as a channel value (R51). -/
def byteField (w : Word) (lo : Nat) : Byte := BitVec.ofNat 8 (field w (lo + 7) lo)

/-- OP, header bits [31:28] (R46). -/
def opField (h : Word) : Nat := field h 31 28

/-- L, header bits [23:0] of an ENC_CHAIN header (R47). -/
def lenField (h : Word) : Nat := field h 23 0

/-- MsgLen (R49): reserved bits do not enter it. -/
def msgLen (h : Word) : Nat := if opField h = 4 then 1 + lenField h else 1

/-- The reserved header bits of the four formats (R47, R52), as a number that must be zero; a reserved OP has no
format (60_exceptions.md R82). -/
def reservedHeaderBits (h : Word) : Nat :=
  match opField h with
  | 1 => field h 27 1
  | 2 => field h 27 8
  | 3 => field h 27 24
  | 4 => field h 26 24
  | _ => 0

/-- A pixel operand word's pixel (R48). -/
def pixelOfWord (w : Word) : Pixel := ⟨byteField w 16, byteField w 8, byteField w 0⟩

/-- The 0-based index of the first pixel word with a nonzero byte [31:24] (R52, 60_exceptions.md R82). -/
def firstBadPixel (ws : List Word) : Option Nat := ws.findIdx? fun w => field w 31 24 != 0

/-- The pixel words w_1 .. w_L of an ENC_CHAIN message with header `h` and operand words `ops` (43_frame.md R74). A whole
message has exactly L of them (log 14). -/
def pixelWords (h : Word) (ops : List Word) : List Word := ops.take (lenField h)

/-- The command a whole message stands for, or the error it is answered with: OP first, then the reserved header bits,
then the pixel words from the lowest index (R52, R54, 60_exceptions.md R81, R82). -/
def decodeMessage (h : Word) (ops : List Word) : Except CmdError Instr :=
  match opField h with
  | 1 => if reservedHeaderBits h = 0 then .ok (.encBit (bitField h 0)) else .error ⟨.rsvdHdr, h⟩
  | 2 => if reservedHeaderBits h = 0 then .ok (.encChan (byteField h 0)) else .error ⟨.rsvdHdr, h⟩
  | 3 =>
    if reservedHeaderBits h = 0 then .ok (.encPix (byteField h 16) (byteField h 8) (byteField h 0))
    else .error ⟨.rsvdHdr, h⟩
  | 4 =>
    if reservedHeaderBits h = 0 then
      match firstBadPixel (pixelWords h ops) with
      | some i => .error ⟨.rsvdPix, BitVec.ofNat 32 (i + 1)⟩
      | none => .ok (.encChain (bitField h 27) ((pixelWords h ops).map pixelOfWord))
    else .error ⟨.rsvdHdr, h⟩
  | _ => .error ⟨.badOp, h⟩

/-- Why a stream of words gives no command. -/
inductive Reject where
  /-- The first message is malformed and is answered with this error. -/
  | command (e : CmdError)
  /-- The stream ends before the first message does (70_reset_and_hazards.md R101). -/
  | incomplete
deriving DecidableEq, Repr

/-- The first command of a stream of words, and the words after its message (R46, R49). -/
def decode : List Word → Except Reject (Instr × List Word)
  | [] => .error .incomplete
  | h :: rest =>
    if rest.length + 1 < msgLen h then .error .incomplete
    else
      match decodeMessage h rest with
      | .ok i => .ok (i, rest.drop (msgLen h - 1))
      | .error e => .error (.command e)

/-! ### Bytes: command words over a byte-wide link, most significant byte first (20_memory.md R38, log 16) -/

/-- The bytes of a command word in link order (R38). -/
def wordBytes (w : Word) : List Byte := [byteField w 24, byteField w 16, byteField w 8, byteField w 0]

/-- The word four link bytes carry (R38). -/
def wordOfBytes (b3 b2 b1 b0 : Byte) : Word :=
  BitVec.ofNat 32 (b3.toNat * 2 ^ 24 + b2.toNat * 2 ^ 16 + b1.toNat * 2 ^ 8 + b0.toNat)

/-- The whole words of a byte stream; up to three bytes at its end make no word. -/
def wordsOfBytes : List Byte → List Word
  | b3 :: b2 :: b1 :: b0 :: rest => wordOfBytes b3 b2 b1 b0 :: wordsOfBytes rest
  | _ => []

/-- The first command of a byte stream, and the words after it: total on any bytes. -/
def decodeBytes (bs : List Byte) : Except Reject (Instr × List Word) := decode (wordsOfBytes bs)

/-! ### The encoder -/

/-- The operand word of a pixel: `r<<16 | g<<8 | b` (R48, R55). -/
def pixelWord (p : Pixel) : Word := BitVec.ofNat 32 (p.r.toNat * 2 ^ 16 + p.g.toNat * 2 ^ 8 + p.b.toNat)

/-- The header of ENC_CHAIN with padding flag `p` and chain length `l` (R47, R55). -/
def chainHeader (p : Bool) (l : Nat) : Word := BitVec.ofNat 32 (0x40000000 + p.toNat * 2 ^ 27 + l)

/-- The words of a command, header first (R47, R48, R55, R56). -/
def encode : Instr → List Word
  | .encBit b => [BitVec.ofNat 32 (0x10000000 + b.toNat)]
  | .encChan v => [BitVec.ofNat 32 (0x20000000 + v.toNat)]
  | .encPix r g b => [BitVec.ofNat 32 (0x30000000 + r.toNat * 2 ^ 16 + g.toNat * 2 ^ 8 + b.toNat)]
  | .encChain p px => chainHeader p px.length :: px.map pixelWord
  | .latch => [BitVec.ofNat 32 0x48000000]
  | .encEmpty => [BitVec.ofNat 32 0x40000000]
  | .encFrame px => BitVec.ofNat 32 (0x48000000 + px.length) :: px.map pixelWord

/-- The command of the block a command or pseudo-command stands for: the expansion column of R56, and a command itself. -/
def expand : Instr → Instr
  | .encBit b => .encBit b
  | .encChan v => .encChan v
  | .encPix r g b => .encPix r g b
  | .encChain p px => .encChain p px
  | .latch => .encChain true []
  | .encEmpty => .encChain false []
  | .encFrame px => .encChain true px

/-! ### The opcode table's numbering -/

/-- The first `k` words of a number, lowest first. -/
def wordsOfNat : Nat → Nat → List Word
  | 0, _ => []
  | k + 1, v => BitVec.ofNat 32 v :: wordsOfNat k (v / 2 ^ 32)

/-- The message whose bits are `w`, the first word lowest and every bit from `nbits` up zero: as many words as the
header says. -/
def tableMessage (nbits w : Nat) : List Word :=
  wordsOfNat (msgLen (BitVec.ofNat 32 (w % 2 ^ nbits))) (w % 2 ^ nbits)

/-- What the decoder reads from the instruction whose bits are `w`, numbered as spec/opcode_table.json numbers them. -/
def decodeTableWord (nbits w : Nat) : Option Instr :=
  match decode (tableMessage nbits w) with
  | .ok (i, _) => some i
  | .error _ => none

end Sys2Proof
end

