-- ==== Sys2Proof/Machine/Operands.lean ====
section
/-! DEFINITION. Bit strings, packing and channel selection: the notation of 00_scope.md R3 to R7 and the order table of
10_state.md R11. -/

namespace Sys2Proof.Machine

/-- `str_N(P)` (00_scope.md R5): bit N-1 of the pattern first. -/
def strN (n : Nat) (p : Byte) : BitString := (List.range n).map fun k => p.getLsbD (n - 1 - k)

/-- popcount of a byte (00_scope.md R4). -/
def popcount (p : Byte) : Nat := (List.range 8).countP fun k => p.getLsbD k

/-- The number of 1 bits of a bit string. -/
def ones (s : BitString) : Nat := s.count true

/-- Eight bits as a byte, the first-sent one in bit 7 (00_scope.md R7). -/
def byteOfBits (b7 b6 b5 b4 b3 b2 b1 b0 : Bool) : Byte :=
  BitVec.ofNat 8 (b7.toNat * 128 + b6.toNat * 64 + b5.toNat * 32 + b4.toNat * 16 + b3.toNat * 8 + b2.toNat * 4 +
    b1.toNat * 2 + b0.toNat)

/-- `pack` (00_scope.md R7). It is applied only to strings whose length is a multiple of 8 (20_memory.md R34); of any
other it would drop the last bits (log 11). -/
def pack : BitString → Buffer
  | b7 :: b6 :: b5 :: b4 :: b3 :: b2 :: b1 :: b0 :: rest => byteOfBits b7 b6 b5 b4 b3 b2 b1 b0 :: pack rest
  | _ => []

/-- `bits` (00_scope.md R7): the bytes' bits in transmission order. -/
def bits (buf : Buffer) : BitString := buf.flatMap (strN 8)

/-- `zeros(k)` (00_scope.md R6). -/
def zeros (k : Nat) : Buffer := List.replicate k 0

/-- `seq(c)` (10_state.md R11): the channels of a pixel in transmission order. The reserved codes 6 and 7 have no order; an
ill-formed configuration is refused before any use of it (log 11). -/
def seq (order : BitVec 3) : List Channel :=
  match order.toNat with
  | 0 => [.red, .green, .blue]
  | 1 => [.red, .blue, .green]
  | 2 => [.green, .red, .blue]
  | 3 => [.green, .blue, .red]
  | 4 => [.blue, .red, .green]
  | 5 => [.blue, .green, .red]
  | _ => []

/-- `sel` (42_pixel.md R68): a pixel's value of a channel. -/
def sel (p : Pixel) : Channel → Byte
  | .red => p.r
  | .green => p.g
  | .blue => p.b

end Sys2Proof.Machine
end

