-- ==== Sys2Proof/Machine/Setup.lean ====
section
/-! DEFINITION. Configurations: their layout in two words and their checks (10_state.md R10 to R13). -/

namespace Sys2Proof

open Machine

/-- The configuration that the words CFG0 and CFG1 lay out (10_state.md R10). -/
def Config.ofWords (cfg0 cfg1 : Word) : Config where
  n := field cfg0 3 0
  pat0 := byteField cfg0 8
  pat1 := byteField cfg0 16
  order := BitVec.ofNat 3 (field cfg0 6 4)
  padLen := field cfg1 15 0
  rsvd0Bit7 := BitVec.ofNat 1 (field cfg0 7 7)
  rsvd0High := BitVec.ofNat 8 (field cfg0 31 24)
  rsvd1High := BitVec.ofNat 16 (field cfg1 31 16)

/-- CFG0 of a configuration (10_state.md R10). -/
def Config.word0 (cfg : Config) : Word :=
  BitVec.ofNat 32 (cfg.n + cfg.order.toNat * 2 ^ 4 + cfg.rsvd0Bit7.toNat * 2 ^ 7 + cfg.pat0.toNat * 2 ^ 8 +
    cfg.pat1.toNat * 2 ^ 16 + cfg.rsvd0High.toNat * 2 ^ 24)

/-- CFG1 of a configuration (10_state.md R10). -/
def Config.word1 (cfg : Config) : Word := BitVec.ofNat 32 (cfg.padLen + cfg.rsvd1High.toNat * 2 ^ 16)

/-- What a check of 10_state.md R12 demands. -/
def Config.meets (cfg : Config) : ConfigCheck → Bool
  | .wf1 => decide (1 ≤ cfg.n ∧ cfg.n ≤ 8)
  | .wf2 => decide (cfg.pat0.toNat < 2 ^ cfg.n ∧ cfg.pat1.toNat < 2 ^ cfg.n)
  | .wf3 => decide (popcount cfg.pat1 > popcount cfg.pat0)
  | .wf4 => decide (cfg.order.toNat ≤ 5)
  | .wf5 => decide (cfg.rsvd0Bit7 = 0 ∧ cfg.rsvd0High = 0 ∧ cfg.rsvd1High = 0)
  | .wf6 => decide (cfg.padLen ≤ 65535)

/-- The checks in the order they are named (95_test_vectors.md V-CF2: the first failed one is named, log 12). -/
def configChecks : List ConfigCheck := [.wf1, .wf2, .wf3, .wf4, .wf5, .wf6]

/-- The first check a configuration fails (10_state.md R13). -/
def Config.firstFailed (cfg : Config) : Option ConfigCheck := configChecks.find? fun c => !cfg.meets c

/-- A well-formed configuration: all of WF1 to WF6 hold (10_state.md R12). -/
def Config.WellFormed (cfg : Config) : Prop := ∀ c : ConfigCheck, cfg.meets c = true

end Sys2Proof
end

