-- ==== Sys2Proof/Machine/Ops.lean ====
section
/-! DEFINITION. The named operations over State that every meaning and every event is made of. -/

namespace Sys2Proof.Machine

/-- The outcome of a step. -/
abbrev Result := Host.Outcome State Fault Refusal

/-- `rx <- v` (00_scope.md R8). -/
def State.withRx (s : State) (v : List Word) : State := { s with rx := v }

/-- The host's events still to come. -/
def State.withInbox (s : State) (es : List Event) : State := { s with inbox := es }

/-- One more response, produced whole (20_memory.md R40, R41). -/
def State.push (s : State) (r : Response) : State := { s with responses := s.responses ++ [r] }

/-- The transport's set-up replaced (70_reset_and_hazards.md R95). -/
def State.withTransportConfig (s : State) (t : TransportSetup) : State :=
  { s with transport := { s.transport with config := some t } }

/-- One more transport write, and one answer drawn. -/
def State.recordWrite (s : State) (w : WriteRecord) : State :=
  { s with transport := { s.transport with draws := s.transport.draws + 1, writes := s.transport.writes ++ [w] } }

/-- What only a well-formed configuration may do; an ill-formed one makes no machine (10_state.md R13). -/
def State.ifMade (s : State) (k : Result) : Result :=
  match s.cfg.firstFailed with
  | some c => .refused (.illFormedConfig c)
  | none => k

/-- Answer the current message with `r` (30_encoding.md R53, R54): nothing else changes. -/
def State.respond (s : State) (r : Response) : Result := s.ifMade (.next (s.push r))

/-- `out <- buf` (00_scope.md R8). -/
def State.outBytes (s : State) (buf : Buffer) : Result := s.respond (.okBytes buf)

/-- `bits_out <- g` (00_scope.md R8). -/
def State.outBits (s : State) (g : BitString) : Result := s.respond (.okBits g)

/-- `raise CmdError(code, info)` (60_exceptions.md R80): the message is answered with Err, nothing is saved, there is no
handler, and the next word starts a new message. This is the block's one exception, and nothing returns from it. -/
def State.raise (s : State) (e : CmdError) : Result := s.respond (.err e.code e.info)

/-- The reset (70_reset_and_hazards.md R90, R91, R93): the words of an incomplete message are discarded, the
configuration stays. -/
def State.resetPort (s : State) : State := s.withRx []

/-- The answer of a transport write (20_memory.md R45): a draw, but a buffer longer than the transport accepts is a
transport error (60_exceptions.md R89, log 7). Several machines share the one source of answers and the one size limit, so
equal draw numbers give them equal answers: DESIGN CHOICE, unsafe, log 25. -/
def writeAnswer (draw : Nat) (buf : Buffer) : WriteResult :=
  if buf.length > Config.transportMaxBytes then .transportError else Config.transportAnswer draw

/-- One transport write by the host; the block sees nothing of it (20_memory.md R44, R45). -/
def State.writeTransport (s : State) (buf : Buffer) : State :=
  s.recordWrite { buf := buf, result := writeAnswer s.transport.draws buf, config := s.transport.config }

/-- Make a machine from the words CFG0 and CFG1 (10_state.md R13, 70_reset_and_hazards.md R104): ready at once, no message in
progress (R92), or refused by the first failed check. -/
def makeInstance (cfg0 cfg1 : Word) : Result :=
  let s : State := { State.reset with cfg := Config.ofWords cfg0 cfg1 }
  s.ifMade (.next s)

/-- The next state of an outcome, if it is one. -/
def stateOf : Result → Option State
  | .next s => some s
  | .fault _ => none
  | .refused _ => none

/-- The refusal of an outcome, if it is one. -/
def refusalOf : Result → Option Refusal
  | .next _ => none
  | .fault _ => none
  | .refused r => some r

end Sys2Proof.Machine
end

