-- ==== Sys2Proof/Machine/BitTiming.lean ====
section
/-! DEFINITION. The BitTimingEncoder and ENC_BIT (40_bit_timing.md). -/

namespace Sys2Proof.Machine

/-- The pattern of a logical bit. -/
def pattern (cfg : Config) (b : Bool) : Byte := if b then cfg.pat1 else cfg.pat0

/-- `EncBit(cfg, b)` (R57). -/
def encBit (cfg : Config) (b : Bool) : BitString := if b then strN cfg.n cfg.pat1 else strN cfg.n cfg.pat0

/-- ENC_BIT (R58). The reserved bits are checked by the decoder (log 10). -/
def execEncBit (b : Bool) (s : State) : Result := s.outBits (encBit s.cfg b)

end Sys2Proof.Machine
end

