-- ==== Sys2Proof/Machine/Channel.lean ====
section
/-! DEFINITION. The ChannelEncoder and ENC_CHAN (41_channel.md section 1). -/

namespace Sys2Proof.Machine

/-- `EncChanBits(cfg, v)` (R60). -/
def encChanBits (cfg : Config) (v : Byte) : BitString :=
  encBit cfg (v.getLsbD 7) ++ encBit cfg (v.getLsbD 6) ++ encBit cfg (v.getLsbD 5) ++ encBit cfg (v.getLsbD 4) ++
    encBit cfg (v.getLsbD 3) ++ encBit cfg (v.getLsbD 2) ++ encBit cfg (v.getLsbD 1) ++ encBit cfg (v.getLsbD 0)

/-- `EncChan(cfg, v)` (R61). -/
def encChan (cfg : Config) (v : Byte) : Buffer := pack (encChanBits cfg v)

/-- `S(cfg, v)` of the closed form (R62). -/
def chanNumber (cfg : Config) (v : Byte) : Nat :=
  ((List.range 8).map fun i => (pattern cfg (v.getLsbD i)).toNat * 2 ^ (cfg.n * i)).sum

/-- ENC_CHAN (R63). -/
def execEncChan (v : Byte) (s : State) : Result := s.outBytes (encChan s.cfg v)

end Sys2Proof.Machine
end

