-- ==== Sys2Proof/Machine/Pixels.lean ====
section
/-! DEFINITION. The PixelEncoder and ENC_PIX (42_pixel.md). -/

namespace Sys2Proof.Machine

/-- `Wire(cfg, r, g, b)` (R68): the channel values in transmission order. -/
def wire (cfg : Config) (p : Pixel) : List Byte := (seq cfg.order).map (sel p)

/-- `EncPix(cfg, r, g, b)` (R69). -/
def encPix (cfg : Config) (p : Pixel) : Buffer := (wire cfg p).flatMap (encChan cfg)

/-- ENC_PIX (R70). -/
def execEncPix (r g b : Byte) (s : State) : Result := s.outBytes (encPix s.cfg ⟨r, g, b⟩)

end Sys2Proof.Machine
end

