-- ==== Sys2Proof/Machine/Frame.lean ====
section
/-! DEFINITION. The FrameBuffer Builder, ENC_CHAIN and its other names (43_frame.md, 30_encoding.md R56). -/

namespace Sys2Proof.Machine

/-- `Pad(cfg, P)` (R73). -/
def pad (cfg : Config) (p : Bool) : Buffer := if p then zeros cfg.padLen else []

/-- `EncChain(cfg, P, px)` (R72). -/
def encChain (cfg : Config) (p : Bool) (px : List Pixel) : Buffer := px.flatMap (encPix cfg) ++ pad cfg p

/-- ENC_CHAIN (R74). The pixel words' reserved bits are checked by the decoder (log 10). A chain longer than L_MAX, which no
message carries, is answered in the same way (log 13). -/
def execEncChain (p : Bool) (px : List Pixel) (s : State) : Result := s.outBytes (encChain s.cfg p px)

/-- latch (R56): ENC_CHAIN with padding and no pixels. -/
def execLatch (s : State) : Result := s.outBytes (encChain s.cfg true [])

/-- enc.empty (R56): ENC_CHAIN without padding and no pixels. -/
def execEncEmpty (s : State) : Result := s.outBytes (encChain s.cfg false [])

/-- enc.frame (R56): ENC_CHAIN with padding. -/
def execEncFrame (px : List Pixel) (s : State) : Result := s.outBytes (encChain s.cfg true px)

end Sys2Proof.Machine
end

