-- ==== Sys2Proof/Machine/Dispatch.lean ====
section
/-! DEFINITION. Dispatch: one arm per command (30_encoding.md R54). -/

namespace Sys2Proof.Machine

def exec (i : Instr) (s : State) : Host.Outcome State Fault Refusal :=
  match i with
  | .encBit b => Sys2Proof.Machine.execEncBit b s
  | .encChan v => Sys2Proof.Machine.execEncChan v s
  | .encPix r g b => Sys2Proof.Machine.execEncPix r g b s
  | .encChain p px => Sys2Proof.Machine.execEncChain p px s
  | .latch => Sys2Proof.Machine.execLatch s
  | .encEmpty => Sys2Proof.Machine.execEncEmpty s
  | .encFrame px => Sys2Proof.Machine.execEncFrame px s

end Sys2Proof.Machine
end

