-- ==== Sys2Proof/Machine/Port.lean ====
section
/-! DEFINITION. The command port: word acceptance (30_encoding.md R50), the events of the host (70_reset_and_hazards.md
R104), and how a message is put where the next step takes it. -/

namespace Sys2Proof.Machine

/-- The header of the message that word `w` continues or begins: `m[0]` for `m = rx ++ [w]` (R50). -/
def headerWith (rx : List Word) (w : Word) : Word :=
  match rx with
  | [] => w
  | h :: _ => h

/-- The operand words of the message that `w` continues or begins: the rest of `m`. -/
def operandsWith (rx : List Word) (w : Word) : List Word :=
  match rx with
  | [] => []
  | _ :: ops => ops ++ [w]

/-- `Exec(cfg, m)` (R54) for a whole message: run its command, or answer its error. -/
def execMessage (h : Word) (ops : List Word) (s : State) : Result :=
  match decodeMessage h ops with
  | .ok i => exec i s
  | .error e => s.raise e

/-- `Accept(w)` (R50). -/
def State.accept (s : State) (w : Word) : Result :=
  if s.rx.length + 1 < msgLen (headerWith s.rx w) then .next (s.withRx (s.rx ++ [w]))
  else execMessage (headerWith s.rx w) (operandsWith s.rx w) (s.withRx [])

/-- The effect of one event (70_reset_and_hazards.md R104). -/
def State.deliver (s : State) : Event → Result
  | .word w => s.accept w
  | .reset => .next s.resetPort
  | .setupTransport t => .next (s.withTransportConfig t)
  | .write buf => .next (s.writeTransport buf)

/-- One step: the next event takes effect; with none to come the machine waits, unchanged (70_reset_and_hazards.md R101, R105,
log 5). A machine with an ill-formed configuration does not exist (10_state.md R13). -/
def State.advance (s : State) : Result :=
  s.ifMade
    (match s.inbox with
    | [] => .next s
    | e :: es => (s.withInbox es).deliver e)

/-- The state in which the very next step takes the last word of message `m` (log 4). -/
def State.offer (s : State) (m : List Word) : State :=
  (s.withRx m.dropLast).withInbox (.word (m.getLastD 0) :: s.inbox)

end Sys2Proof.Machine
end

