-- ==== Sys2Proof/Machine/Step.lean ====
section
/-! DEFINITION. The step of the machine: one event of the host (30_encoding.md R50, 70_reset_and_hazards.md R105). -/

namespace Sys2Proof.Machine

/-- One step. -/
def step (s : State) : Host.Outcome State Fault Refusal := s.advance

/-- The state `s` with the opcode table's instruction of bits `w` offered to the port, so that the very next step runs it
(log 4): all its words but the last are in rx, and the last comes next. -/
def State.withFetchWord (s : State) (nbits w : Nat) : State := s.offer (tableMessage nbits w)

end Sys2Proof.Machine
end

