-- ==== Sys2Proof/Machine/Assembler.lean ====
section
/-! DEFINITION. The assembler of 30_encoding.md R55 and R56: from text to lines, from lines to command words. It is a tool
beside the block. What R55 leaves open of it is log 15. -/

namespace Sys2Proof.Machine

/-! ### From lines to words -/

/-- Is the line a px line? -/
def isPx : AsmLine → Bool
  | .px _ _ _ => true
  | _ => false

/-- L: the px lines up to the next command line (R55). -/
def countPx (ls : List AsmLine) : Nat := (ls.takeWhile isPx).length

/-- A word, if its operands are in range. -/
def inRange (ok : Bool) (w : Nat) : Except AsmError Word :=
  if ok then .ok (BitVec.ofNat 32 w) else .error .operandRange

/-- The word `base | r<<16 | g<<8 | b` of three channel values (R55). -/
def rgbWord (base r g b : Nat) : Except AsmError Word :=
  inRange (decide (r < 256 ∧ g < 256 ∧ b < 256)) (base + r * 2 ^ 16 + g * 2 ^ 8 + b)

/-- The header of a chain whose px lines come next (R55, R56). -/
def chainWord (base : Nat) (rest : List AsmLine) : Except AsmError Word :=
  if countPx rest ≤ lMax then .ok (BitVec.ofNat 32 (base + countPx rest)) else .error .chainTooLong

/-- The word of one line (R55, R56): `rest` are the lines after it. -/
def lineWord (l : AsmLine) (rest : List AsmLine) : Except AsmError Word :=
  match l with
  | .bit b => inRange (decide (b ≤ 1)) (0x10000000 + b)
  | .chan v => inRange (decide (v ≤ 255)) (0x20000000 + v)
  | .pix r g b => rgbWord 0x30000000 r g b
  | .chainNoPad => chainWord 0x40000000 rest
  | .chainPad => chainWord 0x48000000 rest
  | .px r g b => rgbWord 0 r g b
  | .word x => inRange (decide (x < 2 ^ 32)) x
  | .latch => .ok (BitVec.ofNat 32 0x48000000)
  | .frame => chainWord 0x48000000 rest
  | .empty => .ok (BitVec.ofNat 32 0x40000000)

/-- May px lines follow this line? -/
def opensChain : AsmLine → Bool
  | .chainNoPad => true
  | .chainPad => true
  | .frame => true
  | .px _ _ _ => true
  | _ => false

/-- The words of the lines; `inChain` says whether a px line may come first. -/
def assembleFrom (inChain : Bool) : List AsmLine → Except AsmError (List Word)
  | [] => .ok []
  | l :: rest =>
    if isPx l && !inChain then .error .pxOutsideChain
    else
      match lineWord l rest, assembleFrom (opensChain l) rest with
      | .ok w, .ok ws => .ok (w :: ws)
      | .error e, _ => .error e
      | .ok _, .error e => .error e

/-- The words of a program's lines (R55). -/
def assemble (ls : List AsmLine) : Except AsmError (List Word) := assembleFrom false ls

/-- The lines that write a command (R55, R56). -/
def linesOf : Instr → List AsmLine
  | .encBit b => [.bit b.toNat]
  | .encChan v => [.chan v.toNat]
  | .encPix r g b => [.pix r.toNat g.toNat b.toNat]
  | .encChain p px =>
    (if p then .chainPad else .chainNoPad) :: px.map fun x => .px x.r.toNat x.g.toNat x.b.toNat
  | .latch => [.latch]
  | .encEmpty => [.empty]
  | .encFrame px => .frame :: px.map fun x => .px x.r.toNat x.g.toNat x.b.toNat

/-! ### From text to lines -/

/-- A space or a tab (log 15). -/
def isBlank (c : Char) : Bool := c == ' ' || c == '\t' || c == '\r'

/-- The text without blanks at either end. -/
def trim (cs : List Char) : List Char := ((cs.dropWhile isBlank).reverse.dropWhile isBlank).reverse

/-- The pieces of a text between the separators `sep`. -/
def splitAtChar (sep : Char) : List Char → List (List Char)
  | [] => [[]]
  | c :: cs =>
    if c == sep then [] :: splitAtChar sep cs
    else
      match splitAtChar sep cs with
      | [] => [[c]]
      | p :: ps => (c :: p) :: ps

/-- The value of a digit below `base`. -/
def digitValue (base : Nat) (c : Char) : Option Nat :=
  let n := c.toNat
  let v :=
    if 48 ≤ n ∧ n ≤ 57 then n - 48
    else if 97 ≤ n ∧ n ≤ 102 then n - 87
    else if 65 ≤ n ∧ n ≤ 70 then n - 55
    else base
  if v < base then some v else none

/-- The number some digits write. -/
def digitsValue (base acc : Nat) : List Char → Option Nat
  | [] => some acc
  | c :: cs => (digitValue base c).bind fun d => digitsValue base (acc * base + d) cs

/-- A decimal or `0x` hexadecimal number (R55). -/
def parseNumber (cs : List Char) : Option Nat :=
  match cs with
  | [] => none
  | '0' :: 'x' :: d :: ds => digitsValue 16 0 (d :: ds)
  | c :: ds => digitsValue 10 0 (c :: ds)

/-- The numbers of an operand list, between commas. -/
def parseNumbers (cs : List Char) : Option (List Nat) := (splitAtChar ',' cs).mapM fun p => parseNumber (trim p)

/-- A line that takes one number. -/
def oneOperand (mk : Nat → AsmLine) (cs : List Char) : Except AsmError AsmLine :=
  match parseNumbers cs with
  | some [a] => .ok (mk a)
  | _ => .error .badOperands

/-- A line that takes three numbers. -/
def threeOperands (mk : Nat → Nat → Nat → AsmLine) (cs : List Char) : Except AsmError AsmLine :=
  match parseNumbers cs with
  | some [a, b, c] => .ok (mk a b c)
  | _ => .error .badOperands

/-- A line that takes no operand. -/
def noOperand (l : AsmLine) (cs : List Char) : Except AsmError AsmLine :=
  if cs = [] then .ok l else .error .badOperands

/-- The line of a mnemonic and its operand text (R55, R56). -/
def parseCommand (mnemonic operands : List Char) : Except AsmError AsmLine :=
  if mnemonic = "enc.bit".toList then oneOperand .bit operands
  else if mnemonic = "enc.chan".toList then oneOperand .chan operands
  else if mnemonic = "enc.pix".toList then threeOperands .pix operands
  else if mnemonic = "px".toList then threeOperands .px operands
  else if mnemonic = ".word".toList then oneOperand .word operands
  else if mnemonic = "latch".toList then noOperand .latch operands
  else if mnemonic = "enc.frame".toList then noOperand .frame operands
  else if mnemonic = "enc.empty".toList then noOperand .empty operands
  else if mnemonic = "enc.chain".toList then
    if operands = "pad".toList then .ok .chainPad
    else if operands = "nopad".toList then .ok .chainNoPad
    else .error .badOperands
  else .error .unknownMnemonic

/-- A text line: nothing, where only blanks stand before the comment; otherwise its one command (R55). -/
def parseLine (cs : List Char) : Except AsmError (List AsmLine) :=
  match trim (cs.takeWhile (· != ';')) with
  | [] => .ok []
  | code =>
    match parseCommand (code.takeWhile fun c => !isBlank c) (trim (code.dropWhile fun c => !isBlank c)) with
    | .ok l => .ok [l]
    | .error e => .error e

/-- The lines of a text (R55: one command per line). -/
def parseText (cs : List Char) : Except AsmError (List AsmLine) :=
  match (splitAtChar '\n' cs).mapM parseLine with
  | .ok ls => .ok ls.flatten
  | .error e => .error e

/-- The words a program text assembles to (R55, R56). -/
def assembleText (cs : List Char) : Except AsmError (List Word) :=
  match parseText cs with
  | .ok ls => assemble ls
  | .error e => .error e

end Sys2Proof.Machine
end

