-- ==== Sys2Proof/Machine/Line.lean ====
section
/-! DEFINITION. The physical line and its times (20_memory.md R35, R36, 70_reset_and_hazards.md R102): what the transport does
with the bytes of a write. No step of the machine reads any of it. -/

namespace Sys2Proof.Machine

/-- A level of the data line. -/
inductive Level where
  | low
  | high
deriving DecidableEq, Repr

/-- A physical bit 1 is a high unit, a physical bit 0 a low unit (R35). -/
def levelOf (b : Bool) : Level := if b then .high else .low

/-- The line when no frame is being sent (R35). -/
def idleLevel : Level := .low

/-- The levels a buffer puts on the line, one per bus-clock period, in the order of `bits(out)` (R36). That the periods
follow each other without a gap is the model's choice: DESIGN CHOICE, unsafe, log 23 (91_not_in_source.md says not to assume
it of a transport). -/
def lineOf (buf : Buffer) : List Level := (bits buf).map levelOf

/-- A transport set up as R95 requires: most significant bit first, at the matching clock rate. -/
def TransportReady (c : Option TransportSetup) : Prop := c = some { msbFirst := true, clockMatches := true }

/-- What a write put on the line, if the transport inserts no gap (log 23). It is said only of a successful write to a
transport set up as required (R36, R95); of any other write the line is unsaid (log 18). -/
def WriteRecord.line (w : WriteRecord) : Option (List Level) :=
  if w.result = .success ∧ w.config = some { msbFirst := true, clockMatches := true } then some (lineOf w.buf) else none

/-- Bus-clock periods a buffer occupies if the transport inserts no gap (R102, log 23). -/
def linePeriods (buf : Buffer) : Nat := 8 * buf.length

/-- Seconds a buffer occupies at bus clock rate `fBus` in hertz, if the transport inserts no gap (R102, logs 17 and 23). -/
def lineSeconds (fBus : ℚ) (buf : Buffer) : ℚ := linePeriods buf / fBus

/-- Bus-clock periods of one logical bit (R102). -/
def bitPeriods (cfg : Config) : Nat := cfg.n

/-- Bus-clock periods of one pixel, without a gap inside it (R102, log 23). -/
def pixelPeriods (cfg : Config) : Nat := 24 * cfg.n

/-- Bus-clock periods of a frame of `l` pixels with padding, if the transport inserts no gap (R102, log 23). -/
def framePeriods (cfg : Config) (l : Nat) : Nat := 8 * (3 * cfg.n * l + cfg.padLen)

end Sys2Proof.Machine
end

