-- ==== Sys2Proof/Machine/Observer.lean ====
section
/-! DEFINITION. The observer decoder (41_channel.md section 2): no part of the block, used to state the round-trip law. -/

namespace Sys2Proof.Machine

/-- A threshold the observer may use (R65). -/
def ThresholdOk (cfg : Config) (t : Nat) : Prop := popcount cfg.pat0 < t ∧ t ≤ popcount cfg.pat1

/-- The spec's canonical threshold (R65). -/
def threshold (cfg : Config) : Nat := popcount cfg.pat1

/-- `DecGroup` with threshold `t` (R65). -/
def decGroup (t : Nat) (g : BitString) : Bool := decide (ones g ≥ t)

/-- `DecGroupMaj` (R67). -/
def decGroupMaj (n : Nat) (g : BitString) : Bool := decide (2 * ones g > n)

/-- Group j of a bit string: its bits j*N to j*N + N - 1 (R66). -/
def groupAt (n : Nat) (s : BitString) (j : Nat) : BitString := (s.drop (j * n)).take n

/-- The decode of one channel by a group decoder (R66). -/
def decChanBy (dec : BitString → Bool) (n : Nat) (c : Buffer) : Nat :=
  ((List.range 8).map fun j => (dec (groupAt n (bits c) j)).toNat * 2 ^ (7 - j)).sum

/-- `DecChan` with threshold `t` (R66). -/
def decChan (cfg : Config) (t : Nat) (c : Buffer) : Nat := decChanBy (decGroup t) cfg.n c

/-- The decode of one channel by majority vote (R67). -/
def decChanMaj (cfg : Config) (c : Buffer) : Nat := decChanBy (decGroupMaj cfg.n) cfg.n c

end Sys2Proof.Machine
end

