-- ==== Sys2Proof/Machine/System.lean ====
section
/-! DEFINITION. Several machines side by side: many instances, or many ports (20_memory.md R42, 60_exceptions.md R87, log 20). Two
ports of one instance are two machines with the same configuration. Each machine has its own transport, but their answers
are drawn from one source (log 25). -/

namespace Sys2Proof.Machine

/-- The outcome of a step of several machines. -/
abbrev SystemResult := Host.Outcome (List State) Fault Refusal

/-- One step of machine `k`; a number that names no machine does nothing. -/
def systemStep (k : Nat) (ms : List State) : SystemResult :=
  match ms[k]? with
  | none => .next ms
  | some s =>
    match step s with
    | .next t => .next (ms.set k t)
    | .fault f => .fault f
    | .refused r => .refused r

/-- The steps of a schedule, first number first. -/
def systemRun : List Nat → List State → SystemResult
  | [], ms => .next ms
  | k :: ks, ms =>
    match systemStep k ms with
    | .next ms' => systemRun ks ms'
    | .fault f => .fault f
    | .refused r => .refused r

end Sys2Proof.Machine
end

