-- ==== Sys2Proof/Safety.lean ====
section
/-! DEFINITION. Runs, their premises and their ends (70_reset_and_hazards.md R105, R106), the invariant of the machine, and
the duties of the host (R95, R97, R98, R103), in the terms the claims use. -/

namespace Sys2Proof.Machine

/-! ### Runs -/

/-- The launch premises of 70_reset_and_hazards.md R106. `none_pending` needs no clause: no field of State holds a pending
response (R94). -/
structure Launch (s : State) : Prop where
  wf_cfg : s.cfg.WellFormed
  rx_empty : s.rx = []

/-- A launch state: a fresh machine with configuration `cfg`, to which the host will do `es` (R106). -/
def launch (cfg : Config) (es : List Event) : State := { State.reset with cfg := cfg, inbox := es }

/-- `k` steps of the machine, stopping at the first that answers no next state: what Host.Core.run does with this
machine's core (Laws/Runs.lean). -/
def runSteps : Nat → State → Result
  | 0, s => .next s
  | k + 1, s =>
    match step s with
    | .next t => runSteps k t
    | .fault f => .fault f
    | .refused r => .refused r

/-- The run of all events of the inbox (R105): one step per event. -/
def runAll (s : State) : Result := runSteps s.inbox.length s

/-- What a run is observed by: its responses in order, and the final rx (R105). -/
def observation (s : State) : List Response × List Word := (s.responses, s.rx)

/-- A run that ended complete (R105). -/
def Complete (s : State) : Prop := s.rx = []

/-- A run that ended stuck (R101, R105). -/
def Stuck (s : State) : Prop := s.rx ≠ []

/-- No response of the run is an Err (R106). -/
def NoError (s : State) : Prop := ∀ r ∈ s.responses, status r = 0

/-- The events that send some words. -/
def sends (ws : List Word) : List Event := ws.map .word

/-- The response to a whole message under a configuration (R54): a function of the two alone (10_state.md R22). -/
def respondTo (cfg : Config) (i : Instr) : Response :=
  match i with
  | .encBit b => .okBits (encBit cfg b)
  | .encChan v => .okBytes (encChan cfg v)
  | .encPix r g b => .okBytes (encPix cfg ⟨r, g, b⟩)
  | .encChain p px => .okBytes (encChain cfg p px)
  | .latch => .okBytes (zeros cfg.padLen)
  | .encEmpty => .okBytes []
  | .encFrame px => .okBytes (encChain cfg true px)

/-- The responses to a stream of words and the words of the message left over, read message by message instead of word
by word (30_encoding.md R46, R49, R54). `fuel` bounds the number of messages. -/
def replies (cfg : Config) : Nat → List Word → List Response × List Word
  | 0, ws => ([], ws)
  | fuel + 1, ws =>
    match decode ws with
    | .error .incomplete => ([], ws)
    | .error (.command e) =>
      let later := replies cfg fuel (ws.drop (msgLen (ws.headD 0)))
      (.err e.code e.info :: later.1, later.2)
    | .ok (i, rest) =>
      let later := replies cfg fuel rest
      (respondTo cfg i :: later.1, later.2)

/-! ### The invariant -/

/-- rx is a proper beginning of one message (10_state.md R16, 30_encoding.md R50). -/
def RxOk : List Word → Prop
  | [] => True
  | h :: ops => ops.length + 1 < msgLen h

/-- What every response is: a bit group of N bits, a buffer no longer than the largest one (43_frame.md R75), or an error whose
info word is what 60_exceptions.md R81 says. -/
def ResponseOk (cfg : Config) : Response → Prop
  | .okBits g => g = encBit cfg false ∨ g = encBit cfg true
  | .okBytes buf => buf.length ≤ 402718695
  | .err .badOp h => opField h = 0 ∨ 5 ≤ opField h
  | .err .rsvdHdr h => (1 ≤ opField h ∧ opField h ≤ 4) ∧ reservedHeaderBits h ≠ 0
  | .err .rsvdPix i => 1 ≤ i.toNat ∧ i.toNat ≤ lMax

/-- The invariant of the machine. -/
structure Inv (s : State) : Prop where
  cfg_wf : s.cfg.WellFormed
  rx_ok : RxOk s.rx
  responses_ok : ∀ r ∈ s.responses, ResponseOk s.cfg r

/-! ### Duties of the host and of whoever chooses the configuration -/

/-- R95: every write came after the transport was set up as required. -/
def WritesAfterSetup (s : State) : Prop := ∀ w ∈ s.transport.writes, TransportReady w.config

/-- R44, R45, R98: the host's frames, each the buffer of one ENC_CHAIN command, went out in order, each whole in one
successful write; a write that failed tried to send a whole frame too. That a frame whose write failed is sent again
until it succeeds, and never given up, is the model's choice: DESIGN CHOICE, log 24 (R45 names resending as the only way to
recover, and no rule says that a host must recover). -/
def WritesWholeFrames (frames : List Buffer) (s : State) : Prop :=
  (∀ f ∈ frames, ∃ p px, f = encChain s.cfg p px) ∧ (∀ w ∈ s.transport.writes, w.buf ∈ frames) ∧
    (s.transport.writes.filter fun w => w.result = .success).map WriteRecord.buf = frames

/-- R103: the padding lasts at least the latch interval, `tReset` seconds at `fBus` hertz. -/
def PaddingMeetsLatch (tReset fBus : ℚ) (cfg : Config) : Prop := 8 * (cfg.padLen : ℚ) ≥ tReset * fBus

/-- A merge of two hosts' event lists on one port: each keeps its own order (60_exceptions.md R86). -/
inductive Merge : List Event → List Event → List Event → Prop where
  | done : Merge [] [] []
  | left (e : Event) (xs ys zs : List Event) : Merge xs ys zs → Merge (e :: xs) ys (e :: zs)
  | right (e : Event) (xs ys zs : List Event) : Merge xs ys zs → Merge xs (e :: ys) (e :: zs)

end Sys2Proof.Machine
end

