-- ==== Sys2Proof/Certificates/Slice0/Obligations.lean ====
section
/-! DEFINITION. The statements about the model, each with the rule of spec/ it formalises. -/

open Sys2Proof Sys2Proof.Machine

/-! ### Messages as words -/

/-- R47, R48, R49, R55, R56: a command's words, followed by any others, decode to the command they stand for and leave the
others. -/
def Obligations.DecodeInvertsEncode : Prop :=
  ∀ (i : Instr), i.WellFormed → ∀ rest : List Word, decode (encode i ++ rest) = .ok (expand i, rest)

/-- R47, R48, R52: no bit of an accepted message is dropped; what decodes is a command's words. -/
def Obligations.EncodeInvertsDecode : Prop :=
  ∀ (ws : List Word) (i : Instr) (rest : List Word), decode ws = .ok (i, rest) →
    i.WellFormed ∧ expand i = i ∧ encode i ++ rest = ws

/-- Words written out bit by bit from R47 and R48, with the commands they stand for. -/
def Obligations.WrittenOutWordsDecode : Prop :=
  decodeMessage 0b00010000000000000000000000000001 [] = .ok (.encBit true) ∧
  decodeMessage 0b00100000000000000000000010100101 [] = .ok (.encChan 0xA5) ∧
  decodeMessage 0b00110000000100000010000000110000 [] = .ok (.encPix 0x10 0x20 0x30) ∧
  decodeMessage 0b01001000000000000000000000000001 [0b00000000111111110000000010000000] =
    .ok (.encChain true [⟨0xFF, 0x00, 0x80⟩]) ∧
  decodeMessage 0b01000000000000000000000000000000 [] = .ok (.encChain false [])

/-- R47, R48, R52 and the match and mask columns of opcode_table.json: which messages are which command. -/
def Obligations.MaskAndMatchSelectCommand : Prop :=
  ∀ (h : Word) (ops : List Word),
    ((∃ b, decodeMessage h ops = .ok (.encBit b)) ↔ h &&& 0xFFFFFFFE#32 = 0x10000000#32) ∧
    ((∃ v, decodeMessage h ops = .ok (.encChan v)) ↔ h &&& 0xFFFFFF00#32 = 0x20000000#32) ∧
    ((∃ r g b, decodeMessage h ops = .ok (.encPix r g b)) ↔ h &&& 0xFF000000#32 = 0x30000000#32) ∧
    ((∃ p px, decodeMessage h ops = .ok (.encChain p px)) ↔
      h &&& 0xF7000000#32 = 0x40000000#32 ∧
        ∀ w ∈ ops.take (h.extractLsb' 0 24).toNat, w &&& 0xFF000000#32 = 0#32)

/-- R49: MsgLen depends on the OP field and, for ENC_CHAIN, on L; on nothing else. -/
def Obligations.MessageLengthFromHeader : Prop :=
  ∀ h : Word,
    (h.extractLsb' 28 4 = 0x4#4 → msgLen h = 1 + (h.extractLsb' 0 24).toNat) ∧
    (h.extractLsb' 28 4 ≠ 0x4#4 → msgLen h = 1)

/-- R38: command words sent over a byte-wide link, most significant byte first, are received as they were. -/
def Obligations.LinkBytesCarryWords : Prop :=
  ∀ ws : List Word,
    wordsOfBytes (ws.flatMap wordBytes) = ws ∧ decodeBytes (ws.flatMap wordBytes) = decode ws ∧
    ∀ w : Word, (wordBytes w).head? = some (w.extractLsb' 24 8)

/-- R55, R56: the assembler (with log 15's choices) writes a program's commands as the encoder does. -/
def Obligations.AssemblerEncodesCommands : Prop :=
  ∀ is : List Instr, (∀ i ∈ is, i.WellFormed) → assemble (is.flatMap linesOf) = .ok (is.flatMap encode)

/-! ### The port -/

/-- R50, R54: when the word that completes a message arrives, the step is `exec` of the command the message decodes to, at
the state with that word taken and rx empty. -/
def Obligations.StepRunsDecodedCommand : Prop :=
  ∀ (s : State) (w : Word) (es : List Event) (i : Instr), s.cfg.WellFormed → s.inbox = .word w :: es →
    decode (s.rx ++ [w]) = .ok (i, []) → step s = exec i { s with inbox := es, rx := [] }

/-- R50: a word that does not complete its message is added to rx, and there is no response. -/
def Obligations.IncompleteMessageIsHeld : Prop :=
  ∀ (s : State) (w h : Word) (ops : List Word) (es : List Event), s.cfg.WellFormed → s.inbox = .word w :: es →
    s.rx ++ [w] = h :: ops → (h :: ops).length < msgLen h →
      step s = .next { s with inbox := es, rx := s.rx ++ [w] }

/-- R80: a malformed message is answered with its error, and nothing else changes but rx. -/
def Obligations.MalformedMessageIsAnswered : Prop :=
  ∀ (s : State) (w h : Word) (ops : List Word) (es : List Event) (e : CmdError), s.cfg.WellFormed →
    s.inbox = .word w :: es → s.rx ++ [w] = h :: ops → (h :: ops).length = msgLen h →
      decode (s.rx ++ [w]) = .error (.command e) →
        step s = .next { s with inbox := es, rx := [], responses := s.responses ++ [.err e.code e.info] }

/-- R52, R81: a header with a reserved OP is answered at once with E_BADOP and the header, whatever its other bits. -/
def Obligations.ReservedOpGivesBadOp : Prop :=
  ∀ (s : State) (h : Word) (es : List Event), s.cfg.WellFormed → s.rx = [] → s.inbox = .word h :: es →
    (h.extractLsb' 28 4 = 0x0#4 ∨ 0x5#4 ≤ h.extractLsb' 28 4) →
      step s = .next { s with inbox := es, responses := s.responses ++ [.err .badOp h] }

/-- R52, R81, R82: a whole message of a legal OP with a reserved header bit set is answered with E_RSVD_HDR and the header,
whatever its pixel words. The masks are R52's. -/
def Obligations.ReservedHeaderBitGivesRsvdHdr : Prop :=
  ∀ (s : State) (w h : Word) (ops : List Word) (es : List Event), s.cfg.WellFormed → s.inbox = .word w :: es →
    s.rx ++ [w] = h :: ops → (h :: ops).length = msgLen h →
    ((h.extractLsb' 28 4 = 0x1#4 ∧ h &&& 0x0FFFFFFE#32 ≠ 0#32) ∨
      (h.extractLsb' 28 4 = 0x2#4 ∧ h &&& 0x0FFFFF00#32 ≠ 0#32) ∨
      (h.extractLsb' 28 4 = 0x3#4 ∧ h &&& 0x0F000000#32 ≠ 0#32) ∨
      (h.extractLsb' 28 4 = 0x4#4 ∧ h &&& 0x07000000#32 ≠ 0#32)) →
        step s = .next { s with inbox := es, rx := [], responses := s.responses ++ [.err .rsvdHdr h] }

/-- R52, R74, R82: an ENC_CHAIN message with good header whose pixel word w_i is the first with a reserved bit set is
answered with E_RSVD_PIX and i. -/
def Obligations.FirstReservedPixelGivesRsvdPix : Prop :=
  ∀ (s : State) (w h : Word) (ops : List Word) (es : List Event) (k : Nat) (bad : Word), s.cfg.WellFormed →
    s.inbox = .word w :: es → s.rx ++ [w] = h :: ops → (h :: ops).length = msgLen h →
    h.extractLsb' 28 4 = 0x4#4 → h &&& 0x07000000#32 = 0#32 → ops[k]? = some bad → bad &&& 0xFF000000#32 ≠ 0#32 →
    (∀ j x, j < k → ops[j]? = some x → x &&& 0xFF000000#32 = 0#32) →
      step s = .next { s with inbox := es, rx := [],
                              responses := s.responses ++ [.err .rsvdPix (BitVec.ofNat 32 (k + 1))] }

/-- R91, R93: a reset empties rx and changes nothing else. -/
def Obligations.ResetEmptiesRx : Prop :=
  ∀ (s : State) (es : List Event), s.cfg.WellFormed → s.inbox = .reset :: es →
    step s = .next { s with inbox := es, rx := [] }

/-- R91: at any time between messages, whatever was answered or written before, the words of a message that a reset cuts
off leave no trace in the run. -/
def Obligations.CutMessageLeavesNoTrace : Prop :=
  ∀ (s : State) (ws : List Word) (es : List Event), s.cfg.WellFormed → s.rx = [] → RxOk ws →
    runAll { s with inbox := sends ws ++ .reset :: es } = runAll { s with inbox := es }

/-- R101: a proper beginning of a message is held, without any response, for as long as nothing else comes. The `k` steps
with nothing to come are the model's idle steps, its own choice (log 5): R105 says the block never steps without an event. -/
def Obligations.BeginningOfMessageIsStuck : Prop :=
  ∀ (cfg : Config) (h : Word) (ops : List Word) (k : Nat), cfg.WellFormed → (h :: ops).length < msgLen h →
    ∃ t, runSteps ((h :: ops).length + k) (launch cfg (sends (h :: ops))) = .next t ∧
      observation t = ([], h :: ops) ∧ Stuck t

/-- Log 5 (the model's choice for R101, R105): with no event to come a step changes nothing. -/
def Obligations.IdleStepChangesNothing : Prop :=
  ∀ s : State, s.cfg.WellFormed → s.inbox = [] → step s = .next s

/-- R40, R22: commands sent from a launch state are answered in order, one response each, by what each command and the
configuration say; the run ends complete. -/
def Obligations.CommandsAnsweredInOrder : Prop :=
  ∀ (cfg : Config) (is : List Instr), cfg.WellFormed → (∀ i ∈ is, i.WellFormed) →
    ∃ t, runAll (launch cfg (sends (is.flatMap encode))) = .next t ∧
      t.responses = is.map (respondTo cfg) ∧ Complete t ∧ t.cfg = cfg

/-- R46, R49, R50, R54: taking ANY words one at a time gives the responses, and leaves the rx, of reading the stream message by
message. -/
def Obligations.PortRefinesMessageReading : Prop :=
  ∀ (cfg : Config) (ws : List Word), cfg.WellFormed →
    ∃ t, runAll (launch cfg (sends ws)) = .next t ∧ observation t = replies cfg ws.length ws

/-- R86: under every configuration there are words of two hosts, each host's whole and free of errors alone, that mix on one
port into a message answered with E_RSVD_PIX: a header of one host is taken as a pixel word of the other. -/
def Obligations.SharedPortMixesMessages : Prop :=
  ∀ cfg : Config, cfg.WellFormed →
    ∃ (xs ys : List Word) (zs : List Event) (t u v : State), Merge (sends xs) (sends ys) zs ∧
      runAll (launch cfg (sends xs)) = .next t ∧ NoError t ∧ Complete t ∧
      runAll (launch cfg (sends ys)) = .next u ∧ NoError u ∧ Complete u ∧
      runAll (launch cfg zs) = .next v ∧ ∃ i, Response.err .rsvdPix i ∈ v.responses

/-! ### Configurations -/

/-- R13: with an ill-formed configuration no step and no command has a meaning; the refusal names the failed check. That of
several failed checks the first in the order WF1 to WF6 is named is the model's reading (log 12, DEDUCED) of V-CF2 of
95_test_vectors.md, "the model names the first failed check, WF1". -/
def Obligations.IllFormedConfigIsRefused : Prop :=
  ∀ s : State, ¬ s.cfg.WellFormed →
    ∃ c, s.cfg.firstFailed = some c ∧ s.cfg.meets c = false ∧ step s = .refused (.illFormedConfig c) ∧
      ∀ i, exec i s = .refused (.illFormedConfig c)

/-- R105: with a well-formed configuration every step and every command answers a next state. -/
def Obligations.WellFormedNeverStops : Prop :=
  ∀ s : State, s.cfg.WellFormed → (∃ t, step s = .next t) ∧ ∀ i, ∃ t, exec i s = .next t

/-- R13, R92, R104: a machine is made exactly of a well-formed configuration, and is then ready for a command; with an
ill-formed one, making it is refused naming a failed check. That it is the first in the order WF1 to WF6 is the model's
reading (log 12, DEDUCED) of V-CF2 of 95_test_vectors.md, "the model names the first failed check, WF1". -/
def Obligations.MachineMadeIffWellFormed : Prop :=
  ∀ cfg0 cfg1 : Word,
    ((∃ s, makeInstance cfg0 cfg1 = .next s) ↔ (Config.ofWords cfg0 cfg1).WellFormed) ∧
    (∀ s, makeInstance cfg0 cfg1 = .next s → Launch s ∧ s.cfg = Config.ofWords cfg0 cfg1 ∧ s.responses = []) ∧
    (¬ (Config.ofWords cfg0 cfg1).WellFormed →
      ∃ c, makeInstance cfg0 cfg1 = .refused (.illFormedConfig c) ∧ (Config.ofWords cfg0 cfg1).meets c = false ∧
        ∀ d ∈ [ConfigCheck.wf1, .wf2, .wf3, .wf4, .wf5, .wf6].takeWhile (· ≠ c),
          (Config.ofWords cfg0 cfg1).meets d = true)

/-- R10: the two configuration words hold the record, reserved bits included, and nothing else. -/
def Obligations.ConfigWordsHoldRecord : Prop :=
  (∀ cfg0 cfg1 : Word, (Config.ofWords cfg0 cfg1).word0 = cfg0 ∧ (Config.ofWords cfg0 cfg1).word1 = cfg1) ∧
  ∀ cfg : Config, cfg.WellFormed → Config.ofWords cfg.word0 cfg.word1 = cfg

/-- R12 and R13 on the configurations of 95_test_vectors.md section 2.2: each is refused by the check named there. -/
def Obligations.VectorConfigsRefusedByName : Prop :=
  [(0x00060420, 4), (0x00060429, 4), (0x00060823, 4), (0x00020423, 4), (0x00040623, 4), (0x00060463, 4), (0x000604A3, 4),
    (0x00060423, 0x00010000), (0x00000101, 0)].map (fun x : Word × Word => (Config.ofWords x.1 x.2).firstFailed) =
  [some .wf1, some .wf1, some .wf2, some .wf3, some .wf3, some .wf4, some .wf5, some .wf5, some .wf3] ∧
  [(0x00060423, 4), (0x00010001, 0), (0x00F8C028, 3), (0x000C0854, 2), (0x001C1805, 1), (0x00020003, 0),
    (0x00F0C008, 0)].all (fun x : Word × Word => (Config.ofWords x.1 x.2).firstFailed = none)

/-- R2, R13, R93: no step changes the configuration, so no run does. -/
def Obligations.ConfigurationNeverChanges : Prop :=
  ∀ (k : Nat) (s t : State), runSteps k s = .next t → t.cfg = s.cfg

/-! ### Commands: results, completion and frame -/

/-- R57, and R58 for a header without errors: ENC_BIT answers the N bits of its logical bit's pattern, bit N-1 first, and changes nothing else. -/
def Obligations.EncBitAnswersPattern : Prop :=
  ∀ (s : State) (b : Bool), s.cfg.WellFormed →
    ∃ g : BitString, exec (.encBit b) s = .next { s with responses := s.responses ++ [.okBits g] } ∧
      g.length = s.cfg.n ∧
      ∀ k, k < s.cfg.n → g[k]? = some ((if b then s.cfg.pat1 else s.cfg.pat0).getLsbD (s.cfg.n - 1 - k))

/-- R62, and R63 for a header without errors: ENC_CHAN answers the N bytes of the closed form, most significant first, and changes nothing else. -/
def Obligations.EncChanAnswersClosedForm : Prop :=
  ∀ (s : State) (v : Byte), s.cfg.WellFormed →
    ∃ buf : Buffer, exec (.encChan v) s = .next { s with responses := s.responses ++ [.okBytes buf] } ∧
      buf.length = s.cfg.n ∧
      ∀ k, k < s.cfg.n → buf[k]? =
        some (BitVec.ofNat 8
          (((List.range 8).map fun i => (if v.getLsbD i then s.cfg.pat1 else s.cfg.pat0).toNat * 2 ^ (s.cfg.n * i)).sum /
            2 ^ (8 * (s.cfg.n - 1 - k))))

/-- R68, R69, and R70 for a header without errors: ENC_PIX answers its three channel encodings in the configured order, and changes nothing else. -/
def Obligations.EncPixAnswersWireOrder : Prop :=
  ∀ (s : State) (r g b : Byte), s.cfg.WellFormed →
    ∃ c0 c1 c2 : Byte,
      exec (.encPix r g b) s = .next { s with responses := s.responses ++
        [.okBytes (encChan s.cfg c0 ++ encChan s.cfg c1 ++ encChan s.cfg c2)] } ∧
      (s.cfg.order = 0 → (c0, c1, c2) = (r, g, b)) ∧ (s.cfg.order = 1 → (c0, c1, c2) = (r, b, g)) ∧
      (s.cfg.order = 2 → (c0, c1, c2) = (g, r, b)) ∧ (s.cfg.order = 3 → (c0, c1, c2) = (g, b, r)) ∧
      (s.cfg.order = 4 → (c0, c1, c2) = (b, r, g)) ∧ (s.cfg.order = 5 → (c0, c1, c2) = (b, g, r))

/-- R72, R73, and R74 for a message without errors: ENC_CHAIN answers its pixels' encodings in chain order and then the padding, and changes nothing else. -/
def Obligations.EncChainAnswersFrame : Prop :=
  ∀ (s : State) (p : Bool) (px : List Pixel), s.cfg.WellFormed →
    exec (.encChain p px) s = .next { s with responses := s.responses ++
      [.okBytes ((px.map (encPix s.cfg)).flatten ++ if p then List.replicate s.cfg.padLen 0#8 else [])] }

/-- R56: the pseudo-commands have the words and the effect of their expansions, and change nothing else. -/
def Obligations.PseudoCommandsAnswerAsExpansions : Prop :=
  ∀ (s : State) (px : List Pixel), s.cfg.WellFormed →
    exec .latch s = .next { s with responses := s.responses ++ [.okBytes (List.replicate s.cfg.padLen 0#8)] } ∧
    exec .encEmpty s = .next { s with responses := s.responses ++ [.okBytes []] } ∧
    exec (.encFrame px) s = .next { s with responses := s.responses ++
      [.okBytes ((px.map (encPix s.cfg)).flatten ++ List.replicate s.cfg.padLen 0#8)] } ∧
    encode .latch = [0x48000000#32] ∧ encode .encEmpty = [0x40000000#32] ∧
    encode (.encFrame px) = encode (.encChain true px) ∧
    exec .latch s = exec (.encChain true []) s ∧ exec .encEmpty s = exec (.encChain false []) s ∧
    exec (.encFrame px) s = exec (.encChain true px) s

/-- R22, R54: a command that runs adds one response, which its operands and the configuration alone decide; the
configuration, rx, the events to come and the transport are unchanged. -/
def Obligations.CommandsOnlyRespond : Prop :=
  ∀ (i : Instr) (s t : State), exec i s = .next t →
    t.cfg = s.cfg ∧ t.rx = s.rx ∧ t.inbox = s.inbox ∧ t.transport = s.transport ∧
    t.responses = s.responses ++ [respondTo s.cfg i]

/-- R17, R22, R84: what a word adds to the responses and leaves in rx depends on the configuration, rx and the word alone,
not on earlier messages, later events or the transport. -/
def Obligations.ResponseIndependentOfPast : Prop :=
  ∀ (s s' t t' : State) (w : Word) (es es' : List Event), s.cfg = s'.cfg → s.rx = s'.rx →
    s.inbox = .word w :: es → s'.inbox = .word w :: es' → step s = .next t → step s' = .next t' →
      t.rx = t'.rx ∧ ∃ rs, t.responses = s.responses ++ rs ∧ t'.responses = s'.responses ++ rs

/-- R41, R84, R94: a step takes one event, adds at most one response and changes no earlier one; a response comes only with
an empty rx. -/
def Obligations.StepAddsAtMostOneResponse : Prop :=
  ∀ s t : State, step s = .next t →
    t.inbox = s.inbox.tail ∧ t.cfg = s.cfg ∧
    (t.responses = s.responses ∨ (t.rx = [] ∧ ∃ r, t.responses = s.responses ++ [r]))

/-! ### The invariant -/

/-- R106: the machine after reset (its configuration is the model's choice, log 3) meets the launch premises and the invariant. -/
def Obligations.ResetMeetsInvariant : Prop := Launch State.reset ∧ Inv State.reset

/-- R12, R16, R53, R75, R81: every step from a state of the invariant answers a state of the invariant. -/
def Obligations.StepKeepsInvariant : Prop :=
  ∀ s : State, Inv s → ∃ t, step s = .next t ∧ Inv t

/-- R16: rx holds at most L_MAX words. -/
def Obligations.RxHoldsAtMostLMaxWords : Prop := ∀ s : State, Inv s → s.rx.length ≤ 2 ^ 24 - 1

/-! ### Laws of the encoders -/

/-- R7: byte k of `pack(s)` is the stated sum, and `bits` is the inverse of `pack`. -/
def Obligations.PackAndBitsAreInverse : Prop :=
  (∀ s : BitString, s.length % 8 = 0 → bits (pack s) = s ∧ (pack s).length = s.length / 8 ∧
    ∀ k, k < s.length / 8 → ((pack s)[k]?).map (·.toNat) =
      some (((List.range 8).map fun j => (s.getD (8 * k + j) false).toNat * 2 ^ (7 - j)).sum)) ∧
  ∀ buf : Buffer, pack (bits buf) = buf

/-- R59: both groups have N bits, they differ, and that of 1 has more high units, so the greater high fraction. -/
def Obligations.GroupLaws : Prop :=
  ∀ cfg : Config, cfg.WellFormed →
    (encBit cfg false).length = cfg.n ∧ (encBit cfg true).length = cfg.n ∧ encBit cfg false ≠ encBit cfg true ∧
    ones (encBit cfg true) > ones (encBit cfg false) ∧
    (popcount cfg.pat1 : ℚ) / cfg.n > (popcount cfg.pat0 : ℚ) / cfg.n

/-- R53: on a word interface the bit group is its pattern, widened with zeros. -/
def Obligations.GroupWordIsPattern : Prop :=
  ∀ (cfg : Config) (b : Bool), cfg.WellFormed →
    groupWord (encBit cfg b) = (if b then cfg.pat1 else cfg.pat0).setWidth 32

/-- R64: a channel encodes to N bytes, at most 8, and no two channel values to the same. -/
def Obligations.ChannelLengthAndInjectivity : Prop :=
  ∀ (cfg : Config), cfg.WellFormed →
    (∀ v, (encChan cfg v).length = cfg.n ∧ cfg.n ≤ 8) ∧ ∀ v w, encChan cfg v = encChan cfg w → v = w

/-- R65: the canonical threshold is one, and every threshold tells the two groups apart. -/
def Obligations.ThresholdTellsGroupsApart : Prop :=
  ∀ cfg : Config, cfg.WellFormed → ThresholdOk cfg (threshold cfg) ∧
    ∀ t, ThresholdOk cfg t → decGroup t (encBit cfg false) = false ∧ decGroup t (encBit cfg true) = true

/-- R66: threshold decode recovers every channel value, under every well-formed configuration and every threshold. -/
def Obligations.ThresholdRoundTrip : Prop :=
  ∀ (cfg : Config) (t : Nat) (v : Byte), cfg.WellFormed → ThresholdOk cfg t →
    decChan cfg t (encChan cfg v) = v.toNat

/-- R67: majority vote recovers every channel value exactly under the stated condition, which the fixture meets and the
stated configuration (N = 8, PAT0 = 0xC0, PAT1 = 0xF0) does not. -/
def Obligations.MajorityRoundTripCondition : Prop :=
  (∀ cfg : Config, cfg.WellFormed →
    ((∀ v, decChanMaj cfg (encChan cfg v) = v.toNat) ↔
      2 * popcount cfg.pat0 ≤ cfg.n ∧ cfg.n < 2 * popcount cfg.pat1)) ∧
  (∀ v, decChanMaj Config.fixture (encChan Config.fixture v) = v.toNat) ∧
  decGroupMaj 8 (encBit { Config.fixture with n := 8, pat0 := 0xC0, pat1 := 0xF0 } true) = false

/-- R71: a pixel encodes to 3N bytes, at most 24, and its segment for the channel at wire position k is that channel's
encoding. -/
def Obligations.PixelSplitsIntoChannels : Prop :=
  ∀ (cfg : Config) (p : Pixel), cfg.WellFormed →
    (encPix cfg p).length = 3 * cfg.n ∧ 3 * cfg.n ≤ 24 ∧ (seq cfg.order).length = 3 ∧
    (∀ c, c ∈ seq cfg.order) ∧
    ∀ k c, (seq cfg.order)[k]? = some c →
      ((encPix cfg p).drop (cfg.n * k)).take cfg.n = encChan cfg (sel p c)

/-- R75: the length of a frame, and its bound. -/
def Obligations.FrameLength : Prop :=
  ∀ (cfg : Config) (p : Bool) (px : List Pixel), cfg.WellFormed →
    (encChain cfg p px).length = 3 * cfg.n * px.length + (if p then cfg.padLen else 0) ∧
    (px.length ≤ 2 ^ 24 - 1 → (encChain cfg p px).length ≤ 402718695)

/-- R77: padding at the end only, and concatenation; with them the empty chain's buffers (R76). -/
def Obligations.FramesConcatenate : Prop :=
  ∀ (cfg : Config) (xs ys : List Pixel),
    encChain cfg false [] = [] ∧ encChain cfg true [] = List.replicate cfg.padLen 0#8 ∧
    encChain cfg false (xs ++ ys) = encChain cfg false xs ++ encChain cfg false ys ∧
    encChain cfg true xs = encChain cfg false xs ++ List.replicate cfg.padLen 0#8 ∧
    encChain cfg false xs = (xs.map (encPix cfg)).flatten

/-- R78: where every physical bit of every logical bit of every channel of every pixel of a frame stands, and where the
padding does. -/
def Obligations.FrameOffsets : Prop :=
  ∀ (cfg : Config) (p : Bool) (px : List Pixel), cfg.WellFormed →
    (∀ i x k c j m, px[i]? = some x → (seq cfg.order)[k]? = some c → j < 8 → m < cfg.n →
      (bits (encChain cfg p px))[8 * (3 * cfg.n * i + cfg.n * k) + cfg.n * j + m]? =
        some ((if (sel x c).getLsbD (7 - j) then cfg.pat1 else cfg.pat0).getLsbD (cfg.n - 1 - m))) ∧
    (p = true → ∀ q, q < cfg.padLen → (encChain cfg p px)[3 * cfg.n * px.length + q]? = some 0#8)

/-! ### Beside the block: line, transport, duties, other machines -/

/-- R35, R36, R73: the padding of a frame holds the line low for 8 * PAD_LEN bus-clock periods after its pixels. That the
transport inserts no gap is the model's choice (log 23). -/
def Obligations.PaddingHoldsLineLow : Prop :=
  ∀ (cfg : Config) (px : List Pixel),
    lineOf (encChain cfg true px) = lineOf (encChain cfg false px) ++ List.replicate (8 * cfg.padLen) Level.low

/-- R102: how many bus-clock periods a buffer, a group, a pixel and a padded frame occupy if the transport inserts no gap
(the model's choice of log 23). -/
def Obligations.LineTimes : Prop :=
  ∀ (cfg : Config) (px : List Pixel) (x : Pixel) (b : Bool) (buf : Buffer), cfg.WellFormed →
    (lineOf buf).length = 8 * buf.length ∧ (encBit cfg b).length = bitPeriods cfg ∧
    (lineOf (encPix cfg x)).length = pixelPeriods cfg ∧
    (lineOf (encChain cfg true px)).length = framePeriods cfg px.length

/-- R103: the padding meets the latch interval exactly from the stated byte count on. -/
def Obligations.PaddingSizeForLatch : Prop :=
  ∀ (cfg : Config) (tReset fBus : ℚ), PaddingMeetsLatch tReset fBus cfg ↔ ⌈tReset * fBus / 8⌉₊ ≤ cfg.padLen

/-- R44, R45: a transport write leaves the block as it was and is recorded whole with its answer. The rest is the model's: that
one too long is ALWAYS answered with an error is its reading of R89 (log 7, DEDUCED), and that any other is answered with
`Config.transportAnswer` of a counter of writes is its form of R45's draw (log 6, DESIGN CHOICE). -/
def Obligations.TransportWriteLeavesBlock : Prop :=
  ∀ (s : State) (buf : Buffer) (es : List Event), s.cfg.WellFormed → s.inbox = .write buf :: es →
    ∃ answer, step s = .next { s with
        inbox := es,
        transport := { config := s.transport.config, draws := s.transport.draws + 1,
                       writes := s.transport.writes ++ [⟨buf, answer, s.transport.config⟩] } } ∧
      (buf.length > Config.transportMaxBytes → answer = .transportError) ∧
      (buf.length ≤ Config.transportMaxBytes → answer = Config.transportAnswer s.transport.draws)

/-- R95: setting the transport up changes nothing of the block. That it is an event which replaces the set-up in force is the
model's choice (log 8, DESIGN CHOICE). -/
def Obligations.TransportSetupLeavesBlock : Prop :=
  ∀ (s : State) (c : TransportSetup) (es : List Event), s.cfg.WellFormed → s.inbox = .setupTransport c :: es →
    step s = .next { s with inbox := es, transport := { s.transport with config := some c } }

/-- R42, R87: several machines, each with its own configuration and its own words to come, answer under EVERY schedule that
gives each one a step per word what reading that machine's words alone, message by message, gives. That they are a list of
separate states and a schedule is the model's choice (log 20, DESIGN CHOICE), which already keeps them apart. -/
def Obligations.MachinesDoNotInteract : Prop :=
  ∀ (jobs : List (Config × List Word)) (schedule : List Nat), (∀ j ∈ jobs, j.1.WellFormed) →
    (∀ k j, jobs[k]? = some j → schedule.count k = j.2.length) →
      ∃ ms, systemRun schedule (jobs.map fun j => launch j.1 (sends j.2)) = .next ms ∧
        ms.map observation = jobs.map fun j => replies j.1 j.2.length j.2
end

