-- ==== Sys2Proof/Laws/State.lean ====
section
/-! SUPPORT. What each update of State does to each field. -/

namespace Sys2Proof.Machine.State

variable (s : State)

@[simp] theorem withRx_cfg (v : List Word) : (s.withRx v).cfg = s.cfg := rfl
@[simp] theorem withRx_rx (v : List Word) : (s.withRx v).rx = v := rfl
@[simp] theorem withRx_inbox (v : List Word) : (s.withRx v).inbox = s.inbox := rfl
@[simp] theorem withRx_responses (v : List Word) : (s.withRx v).responses = s.responses := rfl
@[simp] theorem withRx_transport (v : List Word) : (s.withRx v).transport = s.transport := rfl

@[simp] theorem withInbox_cfg (es : List Event) : (s.withInbox es).cfg = s.cfg := rfl
@[simp] theorem withInbox_rx (es : List Event) : (s.withInbox es).rx = s.rx := rfl
@[simp] theorem withInbox_inbox (es : List Event) : (s.withInbox es).inbox = es := rfl
@[simp] theorem withInbox_responses (es : List Event) : (s.withInbox es).responses = s.responses := rfl
@[simp] theorem withInbox_transport (es : List Event) : (s.withInbox es).transport = s.transport := rfl

@[simp] theorem push_cfg (r : Response) : (s.push r).cfg = s.cfg := rfl
@[simp] theorem push_rx (r : Response) : (s.push r).rx = s.rx := rfl
@[simp] theorem push_inbox (r : Response) : (s.push r).inbox = s.inbox := rfl
@[simp] theorem push_responses (r : Response) : (s.push r).responses = s.responses ++ [r] := rfl
@[simp] theorem push_transport (r : Response) : (s.push r).transport = s.transport := rfl

@[simp] theorem withTransportConfig_cfg (c : TransportSetup) : (s.withTransportConfig c).cfg = s.cfg := rfl
@[simp] theorem withTransportConfig_rx (c : TransportSetup) : (s.withTransportConfig c).rx = s.rx := rfl
@[simp] theorem withTransportConfig_inbox (c : TransportSetup) : (s.withTransportConfig c).inbox = s.inbox := rfl
@[simp] theorem withTransportConfig_responses (c : TransportSetup) : (s.withTransportConfig c).responses = s.responses := rfl
@[simp] theorem withTransportConfig_transport (c : TransportSetup) : (s.withTransportConfig c).transport = { s.transport with config := some c } := rfl

@[simp] theorem recordWrite_cfg (w : WriteRecord) : (s.recordWrite w).cfg = s.cfg := rfl
@[simp] theorem recordWrite_rx (w : WriteRecord) : (s.recordWrite w).rx = s.rx := rfl
@[simp] theorem recordWrite_inbox (w : WriteRecord) : (s.recordWrite w).inbox = s.inbox := rfl
@[simp] theorem recordWrite_responses (w : WriteRecord) : (s.recordWrite w).responses = s.responses := rfl
@[simp] theorem recordWrite_transport (w : WriteRecord) : (s.recordWrite w).transport = { s.transport with draws := s.transport.draws + 1, writes := s.transport.writes ++ [w] } := rfl

@[simp] theorem resetPort_cfg : (s.resetPort).cfg = s.cfg := rfl
@[simp] theorem resetPort_rx : (s.resetPort).rx = [] := rfl
@[simp] theorem resetPort_inbox : (s.resetPort).inbox = s.inbox := rfl
@[simp] theorem resetPort_responses : (s.resetPort).responses = s.responses := rfl
@[simp] theorem resetPort_transport : (s.resetPort).transport = s.transport := rfl

@[simp] theorem writeTransport_cfg (buf : Buffer) : (s.writeTransport buf).cfg = s.cfg := rfl
@[simp] theorem writeTransport_rx (buf : Buffer) : (s.writeTransport buf).rx = s.rx := rfl
@[simp] theorem writeTransport_inbox (buf : Buffer) : (s.writeTransport buf).inbox = s.inbox := rfl
@[simp] theorem writeTransport_responses (buf : Buffer) : (s.writeTransport buf).responses = s.responses := rfl
@[simp] theorem writeTransport_transport (buf : Buffer) : (s.writeTransport buf).transport = { s.transport with draws := s.transport.draws + 1, writes := s.transport.writes ++ [⟨buf, writeAnswer s.transport.draws buf, s.transport.config⟩] } := rfl

@[simp] theorem reset_cfg : State.reset.cfg = Config.fixture := rfl
@[simp] theorem reset_rx : State.reset.rx = [] := rfl
@[simp] theorem reset_inbox : State.reset.inbox = [] := rfl
@[simp] theorem reset_responses : State.reset.responses = [] := rfl
@[simp] theorem reset_transport : State.reset.transport = ⟨none, 0, []⟩ := rfl

end Sys2Proof.Machine.State
end

