-- ==== Sys2Proof/Laws/Ops.lean ====
section
/-! SUPPORT. What the shared operations and the step can do, each said once. -/

namespace Sys2Proof

open Machine

/-- The checks spelled out (10_state.md R12). -/
theorem Config.wellFormed_iff {cfg : Config} : cfg.WellFormed ↔
    (1 ≤ cfg.n ∧ cfg.n ≤ 8) ∧ (cfg.pat0.toNat < 2 ^ cfg.n ∧ cfg.pat1.toNat < 2 ^ cfg.n) ∧
      popcount cfg.pat0 < popcount cfg.pat1 ∧ cfg.order.toNat ≤ 5 ∧
      (cfg.rsvd0Bit7 = 0 ∧ cfg.rsvd0High = 0 ∧ cfg.rsvd1High = 0) ∧ cfg.padLen ≤ 65535 := by
  constructor
  · intro h
    have h1 := h .wf1; have h2 := h .wf2; have h3 := h .wf3; have h4 := h .wf4; have h5 := h .wf5; have h6 := h .wf6
    simp only [Config.meets, decide_eq_true_eq] at h1 h2 h3 h4 h5 h6
    exact ⟨h1, h2, h3, h4, h5, h6⟩
  · rintro ⟨h1, h2, h3, h4, h5, h6⟩ c
    cases c <;> simpa [Config.meets]

/-- The first failed check is absent exactly when all checks hold. -/
theorem Config.firstFailed_eq_none {cfg : Config} : cfg.firstFailed = none ↔ cfg.WellFormed := by
  constructor
  · intro h c
    have := List.find?_eq_none.mp h c (by cases c <;> simp [configChecks])
    simpa using this
  · intro h
    exact List.find?_eq_none.mpr fun c _ => by simp [h c]

/-- The named check does fail. -/
theorem Config.meets_of_firstFailed {cfg : Config} {c : ConfigCheck} (h : cfg.firstFailed = some c) :
    cfg.meets c = false := by
  simpa using List.find?_some h

theorem Config.exists_firstFailed {cfg : Config} (h : ¬ cfg.WellFormed) : ∃ c, cfg.firstFailed = some c :=
  Option.ne_none_iff_exists'.mp fun hn => h (Config.firstFailed_eq_none.mp hn)

namespace Machine

/-- Under a well-formed configuration `ifMade` is its continuation. -/
@[simp] theorem State.ifMade_of_wf {s : State} {k : Result} (h : s.cfg.WellFormed) : s.ifMade k = k := by
  simp [State.ifMade, Config.firstFailed_eq_none.mpr h]

/-- Under an ill-formed one it is the refusal by the first failed check. -/
theorem State.ifMade_of_failed {s : State} {k : Result} {c : ConfigCheck} (h : s.cfg.firstFailed = some c) :
    s.ifMade k = .refused (.illFormedConfig c) := by
  simp [State.ifMade, h]

/-- All that `ifMade` can do. -/
theorem State.ifMade_next {s t : State} {k : Result} : s.ifMade k = .next t ↔ s.cfg.WellFormed ∧ k = .next t := by
  by_cases h : s.cfg.WellFormed
  · simp [h]
  · obtain ⟨c, hc⟩ := Config.exists_firstFailed h
    simp [State.ifMade_of_failed hc, h]

/-- All that `respond` can do. -/
theorem State.respond_next {s t : State} {r : Response} :
    s.respond r = .next t ↔ s.cfg.WellFormed ∧ t = s.push r := by
  rw [State.respond, State.ifMade_next, Host.Outcome.next.injEq, eq_comm (a := s.push r)]

theorem State.respond_of_wf {s : State} (h : s.cfg.WellFormed) (r : Response) : s.respond r = .next (s.push r) := by
  simp [State.respond, h]

/-- `raise` is the response Err. -/
theorem State.raise_of_wf {s : State} (h : s.cfg.WellFormed) (e : CmdError) :
    s.raise e = .next (s.push (.err e.code e.info)) := State.respond_of_wf h _

/-- Every meaning is one response, which the command and the configuration decide. -/
theorem exec_eq_respond (i : Instr) (s : State) : exec i s = s.respond (respondTo s.cfg i) := by
  cases i <;>
    simp [exec, execEncBit, execEncChan, execEncPix, execEncChain, execLatch, execEncEmpty, execEncFrame, State.outBits,
      State.outBytes, respondTo, encChain, pad]

/-- All that a meaning can do. -/
theorem exec_next {i : Instr} {s t : State} :
    exec i s = .next t ↔ s.cfg.WellFormed ∧ t = s.push (respondTo s.cfg i) := by
  rw [exec_eq_respond, State.respond_next]

theorem exec_of_wf {s : State} (h : s.cfg.WellFormed) (i : Instr) :
    exec i s = .next (s.push (respondTo s.cfg i)) := exec_next.mpr ⟨h, rfl⟩

/-- The response to a whole message. -/
def messageReply (cfg : Config) (h : Word) (ops : List Word) : Response :=
  match decodeMessage h ops with
  | .ok i => respondTo cfg i
  | .error e => .err e.code e.info

theorem execMessage_of_wf {s : State} (hw : s.cfg.WellFormed) (h : Word) (ops : List Word) :
    execMessage h ops s = .next (s.push (messageReply s.cfg h ops)) := by
  unfold execMessage messageReply
  cases decodeMessage h ops with
  | ok i => exact exec_of_wf hw i
  | error e => exact State.raise_of_wf hw e

/-- The header and the operand words of a message are its words. -/
theorem header_operands (rx : List Word) (w : Word) : rx ++ [w] = headerWith rx w :: operandsWith rx w := by
  cases rx <;> rfl

/-- All that taking a word does. -/
theorem State.accept_of_wf {s : State} (hw : s.cfg.WellFormed) (w : Word) :
    s.accept w =
      if s.rx.length + 1 < msgLen (headerWith s.rx w) then .next (s.withRx (s.rx ++ [w]))
      else .next ((s.withRx []).push (messageReply s.cfg (headerWith s.rx w) (operandsWith s.rx w))) := by
  unfold State.accept
  split
  · rfl
  · exact execMessage_of_wf (s := s.withRx []) hw _ _

/-- All that a step does, by the event that comes next. -/
theorem step_of_wf {s : State} (hw : s.cfg.WellFormed) :
    step s =
      match s.inbox with
      | [] => .next s
      | .word w :: es =>
        if s.rx.length + 1 < msgLen (headerWith s.rx w) then .next ((s.withInbox es).withRx (s.rx ++ [w]))
        else .next (((s.withInbox es).withRx []).push
          (messageReply s.cfg (headerWith s.rx w) (operandsWith s.rx w)))
      | .reset :: es => .next (s.withInbox es).resetPort
      | .setupTransport c :: es => .next ((s.withInbox es).withTransportConfig c)
      | .write buf :: es => .next ((s.withInbox es).writeTransport buf) := by
  unfold step State.advance
  rw [State.ifMade_of_wf hw]
  cases s.inbox with
  | nil => rfl
  | cons e es =>
    cases e with
    | word w => exact State.accept_of_wf (s := s.withInbox es) hw w
    | reset => rfl
    | setupTransport c => rfl
    | write buf => rfl

/-- A step that answers a next state had a well-formed configuration. -/
theorem wf_of_step {s t : State} (h : step s = .next t) : s.cfg.WellFormed := (State.ifMade_next.mp h).1

end Machine

end Sys2Proof
end

