-- ==== Sys2Proof/Laws/Bits.lean ====
section
/-! SUPPORT. Laws of bit strings, packing and the encoders built from them. -/

namespace Sys2Proof.Machine

/-! ### Patterns as bit strings -/

@[simp] theorem strN_length (n : Nat) (p : Byte) : (strN n p).length = n := by simp [strN]

theorem strN_getElem? {n k : Nat} (p : Byte) (h : k < n) : (strN n p)[k]? = some (p.getLsbD (n - 1 - k)) := by
  simp [strN, h]

/-- A byte's own bit string, written out. -/
theorem strN_eight (p : Byte) :
    strN 8 p = [p.getLsbD 7, p.getLsbD 6, p.getLsbD 5, p.getLsbD 4, p.getLsbD 3, p.getLsbD 2, p.getLsbD 1,
      p.getLsbD 0] := rfl

/-- Packing eight bits and reading them back. -/
theorem strN_byteOfBits (b7 b6 b5 b4 b3 b2 b1 b0 : Bool) :
    strN 8 (byteOfBits b7 b6 b5 b4 b3 b2 b1 b0) = [b7, b6, b5, b4, b3, b2, b1, b0] := by
  revert b7 b6 b5 b4 b3 b2 b1 b0; decide

/-- Reading a byte's bits and packing them back. -/
theorem byteOfBits_getLsbD (p : Byte) :
    byteOfBits (p.getLsbD 7) (p.getLsbD 6) (p.getLsbD 5) (p.getLsbD 4) (p.getLsbD 3) (p.getLsbD 2) (p.getLsbD 1)
      (p.getLsbD 0) = p := by
  revert p; decide

/-! ### pack and bits -/

@[simp] theorem bits_nil : bits [] = [] := rfl

@[simp] theorem bits_cons (b : Byte) (buf : Buffer) : bits (b :: buf) = strN 8 b ++ bits buf := rfl

@[simp] theorem bits_append (a b : Buffer) : bits (a ++ b) = bits a ++ bits b := by simp [bits]

@[simp] theorem bits_length (buf : Buffer) : (bits buf).length = 8 * buf.length := by
  induction buf with
  | nil => rfl
  | cons b buf ih => simp [ih]; omega

/-- A string of at least eight bits is eight bits and a rest. -/
theorem exists_eight_bits {s : BitString} (h : 8 ≤ s.length) :
    ∃ b7 b6 b5 b4 b3 b2 b1 b0 r, s = b7 :: b6 :: b5 :: b4 :: b3 :: b2 :: b1 :: b0 :: r := by
  match s, h with
  | b7 :: b6 :: b5 :: b4 :: b3 :: b2 :: b1 :: b0 :: r, _ => exact ⟨b7, b6, b5, b4, b3, b2, b1, b0, r, rfl⟩

/-- The induction of packing: a string whose length is a multiple of 8 is empty, or eight bits and such a string. -/
theorem eight_induction {P : BitString → Prop} (nil : P [])
    (cons : ∀ b7 b6 b5 b4 b3 b2 b1 b0 s, s.length % 8 = 0 → P s → P (b7 :: b6 :: b5 :: b4 :: b3 :: b2 :: b1 :: b0 :: s)) :
    ∀ s : BitString, s.length % 8 = 0 → P s := by
  intro s
  induction h : s.length / 8 generalizing s with
  | zero =>
    intro h8
    have : s = [] := List.eq_nil_of_length_eq_zero (by omega)
    exact this ▸ nil
  | succ k ih =>
    intro h8
    obtain ⟨b7, b6, b5, b4, b3, b2, b1, b0, r, rfl⟩ := exists_eight_bits (s := s) (by omega)
    simp only [List.length_cons] at h h8
    exact cons _ _ _ _ _ _ _ _ r (by omega) (ih r (by omega) (by omega))

theorem bits_pack : ∀ s : BitString, s.length % 8 = 0 → bits (pack s) = s :=
  eight_induction rfl fun b7 b6 b5 b4 b3 b2 b1 b0 s _ ih => by
    rw [pack, bits_cons, ih, strN_byteOfBits]; rfl

theorem pack_bits (buf : Buffer) : pack (bits buf) = buf := by
  induction buf with
  | nil => rfl
  | cons b buf ih =>
    have := byteOfBits_getLsbD b
    rw [bits_cons, strN_eight]
    simp only [List.cons_append, List.nil_append, pack, ih, this]

theorem pack_length : ∀ s : BitString, s.length % 8 = 0 → (pack s).length = s.length / 8 :=
  eight_induction rfl fun b7 b6 b5 b4 b3 b2 b1 b0 s h8 ih => by
    simp only [pack, List.length_cons, ih]; omega

theorem pack_injective {s t : BitString} (hs : s.length % 8 = 0) (ht : t.length % 8 = 0) (h : pack s = pack t) :
    s = t := by rw [← bits_pack s hs, ← bits_pack t ht, h]

@[simp] theorem bits_zeros (k : Nat) : bits (zeros k) = List.replicate (8 * k) false := by
  induction k with
  | zero => rfl
  | succ k ih =>
    have : zeros (k + 1) = 0 :: zeros k := rfl
    rw [this, bits_cons, ih, show 8 * (k + 1) = 8 + 8 * k by omega, List.replicate_add]
    rfl

/-! ### Groups and channels -/

@[simp] theorem encBit_length (cfg : Config) (b : Bool) : (encBit cfg b).length = cfg.n := by
  cases b <;> simp [encBit]

theorem encBit_eq (cfg : Config) (b : Bool) : encBit cfg b = strN cfg.n (pattern cfg b) := by
  cases b <;> rfl

/-- The channel's groups as one list: group j is that of channel bit 7 - j. -/
theorem encChanBits_eq (cfg : Config) (v : Byte) :
    encChanBits cfg v = (List.range 8).flatMap fun j => encBit cfg (v.getLsbD (7 - j)) := by
  simp [encChanBits, List.range, List.range.loop, List.append_assoc]

@[simp] theorem encChanBits_length (cfg : Config) (v : Byte) : (encChanBits cfg v).length = 8 * cfg.n := by
  simp [encChanBits]; omega

/-- The channel's physical bits are its groups (R60, R61). -/
@[simp] theorem bits_encChan (cfg : Config) (v : Byte) : bits (encChan cfg v) = encChanBits cfg v :=
  bits_pack _ (by simp)

@[simp] theorem encChan_length (cfg : Config) (v : Byte) : (encChan cfg v).length = cfg.n := by
  rw [encChan, pack_length _ (by simp)]; simp

/-! ### Pixels and frames -/

/-- A legal order is one of the six permutations of the three channels (10_state.md R11). -/
theorem seq_cases {order : BitVec 3} (h : order.toNat ≤ 5) :
    seq order ∈ [[Channel.red, .green, .blue], [.red, .blue, .green], [.green, .red, .blue], [.green, .blue, .red],
      [.blue, .red, .green], [.blue, .green, .red]] := by
  have key : ∀ o : BitVec 3, o.toNat ≤ 5 → seq o ∈ [[Channel.red, .green, .blue], [.red, .blue, .green],
      [.green, .red, .blue], [.green, .blue, .red], [.blue, .red, .green], [.blue, .green, .red]] := by decide
  exact key order h

/-- Under a well-formed configuration three channels are sent. -/
theorem seq_length {cfg : Config} (hw : cfg.WellFormed) : (seq cfg.order).length = 3 := by
  have h := seq_cases (Config.wellFormed_iff.mp hw).2.2.2.1
  simp only [List.mem_cons, List.not_mem_nil, or_false] at h
  rcases h with h | h | h | h | h | h <;> rw [h] <;> rfl

theorem flatMap_length {α β : Type} (f : α → List β) (n : Nat) (l : List α) (h : ∀ a ∈ l, (f a).length = n) :
    (l.flatMap f).length = l.length * n := by
  induction l with
  | nil => simp
  | cons a l ih =>
    rw [List.flatMap_cons, List.length_append, h a (by simp), ih fun x hx => h x (by simp [hx])]
    simp [Nat.succ_mul, Nat.add_comm]

theorem encPix_length {cfg : Config} (hw : cfg.WellFormed) (p : Pixel) : (encPix cfg p).length = 3 * cfg.n := by
  rw [encPix, flatMap_length _ cfg.n _ fun a _ => encChan_length cfg a]
  simp [wire, seq_length hw]

@[simp] theorem pad_false (cfg : Config) : pad cfg false = [] := rfl

@[simp] theorem pad_true (cfg : Config) : pad cfg true = zeros cfg.padLen := rfl

@[simp] theorem encChain_nil (cfg : Config) (p : Bool) : encChain cfg p [] = pad cfg p := rfl

@[simp] theorem encChain_cons (cfg : Config) (p : Bool) (x : Pixel) (px : List Pixel) :
    encChain cfg p (x :: px) = encPix cfg x ++ encChain cfg p px := by simp [encChain]

theorem encChain_length {cfg : Config} (hw : cfg.WellFormed) (p : Bool) (px : List Pixel) :
    (encChain cfg p px).length = 3 * cfg.n * px.length + (pad cfg p).length := by
  induction px with
  | nil => simp
  | cons x px ih => simp [ih, encPix_length hw, Nat.mul_succ]; omega

end Sys2Proof.Machine
end

