-- ==== Sys2Proof/Laws/Decode.lean ====
section
/-! SUPPORT. Laws of fields, of the decoder's steps and of the encoder. -/

namespace Sys2Proof

/-! ### Fields as bits -/

/-- A field is the extracted bit range (00_scope.md R4). -/
theorem field_eq_extract (w : Word) (hi lo : Nat) : field w hi lo = (w.extractLsb' lo (hi + 1 - lo)).toNat := by
  simp [field, BitVec.extractLsb'_toNat, Nat.shiftRight_eq_div_pow]

theorem field_lt (w : Word) (hi lo : Nat) : field w hi lo < 2 ^ (hi + 1 - lo) :=
  Nat.mod_lt _ (Nat.two_pow_pos _)

/-- Masking a word with the mask of a field leaves the field, in its place. -/
theorem and_fieldMask (x lo k : Nat) : x &&& ((2 ^ k - 1) * 2 ^ lo) = x / 2 ^ lo % 2 ^ k * 2 ^ lo := by
  apply Nat.eq_of_testBit_eq
  intro i
  rw [Nat.testBit_and, Nat.testBit_mul_two_pow, Nat.testBit_mul_two_pow, Nat.testBit_mod_two_pow, Nat.testBit_div_two_pow,
    Nat.testBit_two_pow_sub_one]
  by_cases h : lo ≤ i
  · rw [show i - lo + lo = i by omega]
    by_cases h' : i - lo < k <;> simp [h, h']
  · simp [h]

/-- The same for words. -/
theorem toNat_and_fieldMask (w m : Word) (hi lo : Nat) (hm : m.toNat = (2 ^ (hi + 1 - lo) - 1) * 2 ^ lo) :
    (w &&& m).toNat = field w hi lo * 2 ^ lo := by
  rw [BitVec.toNat_and, hm, and_fieldMask]; rfl

/-- The bits of a field are zero exactly when the field is. -/
theorem and_fieldMask_eq_zero (w m : Word) (hi lo : Nat) (hm : m.toNat = (2 ^ (hi + 1 - lo) - 1) * 2 ^ lo) :
    w &&& m = 0#32 ↔ field w hi lo = 0 := by
  rw [← BitVec.toNat_inj, toNat_and_fieldMask w m hi lo hm]
  simp

/-- The field of a small number. -/
theorem field_ofNat {x : Nat} (h : x < 2 ^ 32) (hi lo : Nat) :
    field (BitVec.ofNat 32 x) hi lo = x / 2 ^ lo % 2 ^ (hi + 1 - lo) := by
  rw [field, BitVec.toNat_ofNat, Nat.mod_eq_of_lt h]

theorem toNat_lt_256 (b : Byte) : b.toNat < 256 := b.isLt

/-! ### The decoder, opcode by opcode -/

theorem decodeMessage_encBit {h : Word} (ho : opField h = 1) (ops : List Word) : decodeMessage h ops =
    if field h 27 1 = 0 then .ok (.encBit (bitField h 0)) else .error ⟨.rsvdHdr, h⟩ := by
  simp [decodeMessage, reservedHeaderBits, ho]

theorem decodeMessage_encChan {h : Word} (ho : opField h = 2) (ops : List Word) : decodeMessage h ops =
    if field h 27 8 = 0 then .ok (.encChan (byteField h 0)) else .error ⟨.rsvdHdr, h⟩ := by
  simp [decodeMessage, reservedHeaderBits, ho]

theorem decodeMessage_encPix {h : Word} (ho : opField h = 3) (ops : List Word) : decodeMessage h ops =
    if field h 27 24 = 0 then .ok (.encPix (byteField h 16) (byteField h 8) (byteField h 0))
    else .error ⟨.rsvdHdr, h⟩ := by
  simp [decodeMessage, reservedHeaderBits, ho]

theorem decodeMessage_encChain {h : Word} (ho : opField h = 4) (ops : List Word) : decodeMessage h ops =
    if field h 26 24 = 0 then
      match firstBadPixel (pixelWords h ops) with
      | some i => .error ⟨.rsvdPix, BitVec.ofNat 32 (i + 1)⟩
      | none => .ok (.encChain (bitField h 27) ((pixelWords h ops).map pixelOfWord))
    else .error ⟨.rsvdHdr, h⟩ := by
  simp only [decodeMessage, reservedHeaderBits, ho] <;> rfl

theorem decodeMessage_badOp {h : Word} (ho : opField h = 0 ∨ 5 ≤ opField h) (ops : List Word) :
    decodeMessage h ops = .error ⟨.badOp, h⟩ := by
  unfold decodeMessage
  split <;> first | rfl | omega

theorem opField_lt (h : Word) : opField h < 16 := field_lt h 31 28

/-- Every header has one of the four legal opcodes, or a reserved one. -/
theorem opField_cases (h : Word) :
    opField h = 1 ∨ opField h = 2 ∨ opField h = 3 ∨ opField h = 4 ∨ (opField h = 0 ∨ 5 ≤ opField h) := by omega

theorem msgLen_chain {h : Word} (ho : opField h = 4) : msgLen h = 1 + lenField h := by rw [msgLen, if_pos ho]

theorem msgLen_single {h : Word} (ho : opField h ≠ 4) : msgLen h = 1 := by rw [msgLen, if_neg ho]

theorem msgLen_pos (h : Word) : 1 ≤ msgLen h := by
  by_cases ho : opField h = 4
  · rw [msgLen_chain ho]; omega
  · rw [msgLen_single ho]

theorem lenField_le (h : Word) : lenField h ≤ lMax := by
  have : lenField h < 2 ^ 24 := field_lt h 23 0
  unfold lMax; omega

/-! ### Pixel words -/

theorem pixelWord_lt (p : Pixel) : p.r.toNat * 2 ^ 16 + p.g.toNat * 2 ^ 8 + p.b.toNat < 2 ^ 24 := by
  have := toNat_lt_256 p.r; have := toNat_lt_256 p.g; have := toNat_lt_256 p.b; omega

theorem field_pixelWord (p : Pixel) : field (pixelWord p) 31 24 = 0 := by
  have := pixelWord_lt p
  rw [pixelWord, field_ofNat (by omega)]; omega

theorem pixelOfWord_pixelWord (p : Pixel) : pixelOfWord (pixelWord p) = p := by
  have := toNat_lt_256 p.r; have := toNat_lt_256 p.g; have := toNat_lt_256 p.b
  have := pixelWord_lt p
  have h (lo : Nat) := field_ofNat (x := p.r.toNat * 2 ^ 16 + p.g.toNat * 2 ^ 8 + p.b.toNat) (by omega) (lo + 7) lo
  obtain ⟨r, g, b⟩ := p
  simp only [pixelOfWord, byteField, pixelWord, Pixel.mk.injEq, h]
  refine ⟨?_, ?_, ?_⟩ <;> apply BitVec.eq_of_toNat_eq <;> simp <;> omega

/-- A word with no reserved bit set is its pixel's word (R48). -/
theorem pixelWord_pixelOfWord {w : Word} (h : field w 31 24 = 0) : pixelWord (pixelOfWord w) = w := by
  have hw := w.isLt
  apply BitVec.eq_of_toNat_eq
  simp only [pixelWord, pixelOfWord, byteField, field, BitVec.toNat_ofNat] at *
  omega

/-- Encoded pixels pass the check of their reserved bits. -/
theorem firstBadPixel_pixelWords (px : List Pixel) : firstBadPixel (px.map pixelWord) = none := by
  simp [firstBadPixel, List.findIdx?_eq_none_iff, field_pixelWord]

theorem firstBadPixel_eq_none {ws : List Word} : firstBadPixel ws = none ↔ ∀ w ∈ ws, field w 31 24 = 0 := by
  simp [firstBadPixel, List.findIdx?_eq_none_iff]

theorem map_pixelOfWord_pixelWord (px : List Pixel) : (px.map pixelWord).map pixelOfWord = px := by
  simp [Function.comp_def, pixelOfWord_pixelWord]

/-! ### Chain headers -/

theorem chainHeader_fields {p : Bool} {l : Nat} (h : l ≤ lMax) :
    opField (chainHeader p l) = 4 ∧ field (chainHeader p l) 26 24 = 0 ∧ lenField (chainHeader p l) = l ∧
      bitField (chainHeader p l) 27 = p := by
  unfold lMax at h
  cases p <;>
    (simp only [chainHeader, opField, lenField, bitField, Bool.toNat_true, Bool.toNat_false]
     rw [field_ofNat (by omega), field_ofNat (by omega), field_ofNat (by omega), field_ofNat (by omega)]
     refine ⟨by omega, by omega, by omega, ?_⟩
     rw [show ∀ a b : Nat, (a == b) = decide (a = b) from fun a b => rfl]
     simp
     omega)

/-- The other names of ENC_CHAIN have its headers (R56). -/
theorem encode_eq_encode_expand (i : Instr) : encode i = encode (expand i) := by
  cases i <;> simp [encode, expand, chainHeader]

end Sys2Proof
end

