-- ==== Sys2Proof/Laws/PerInstr.lean ====
section
/-! SUPPORT. Facts about every command as syntax, one lemma per constructor. -/

namespace Sys2Proof.Laws.EncodedLength

/-- The words of a well-formed command are a header and as many operand words as the header says (R46, R49). -/
def Statement (i : Instr) : Prop :=
  i.WellFormed → ∃ h ops, encode i = h :: ops ∧ msgLen h = ops.length + 1

theorem encBit (b : Bool) : Statement (.encBit b) := by
  intro _; exact ⟨_, _, rfl, by cases b <;> decide⟩

theorem encChan (v : Byte) : Statement (.encChan v) := by
  intro _
  have := v.isLt
  refine ⟨_, _, rfl, ?_⟩
  have h : opField (BitVec.ofNat 32 (0x20000000 + v.toNat)) = 2 := by
    rw [opField, field_ofNat (by omega)]; omega
  rw [msgLen, if_neg (by rw [h]; decide)]; rfl

theorem encPix (r g b : Byte) : Statement (.encPix r g b) := by
  intro _
  have := pixelWord_lt ⟨r, g, b⟩
  refine ⟨_, _, rfl, ?_⟩
  have h : opField (BitVec.ofNat 32 (0x30000000 + r.toNat * 2 ^ 16 + g.toNat * 2 ^ 8 + b.toNat)) = 3 := by
    rw [opField, field_ofNat (by omega)]; omega
  rw [msgLen, if_neg (by rw [h]; decide)]; rfl

theorem encChain (p : Bool) (px : List Pixel) : Statement (.encChain p px) := by
  intro hi
  obtain ⟨h, -, hl, -⟩ := chainHeader_fields (p := p) (l := px.length) hi
  exact ⟨_, _, rfl, by simp [msgLen, h, hl]; omega⟩

theorem latch : Statement .latch := fun _ => ⟨_, _, rfl, by decide⟩

theorem encEmpty : Statement .encEmpty := fun _ => ⟨_, _, rfl, by decide⟩

theorem encFrame (px : List Pixel) : Statement (.encFrame px) := by
  intro hi
  obtain ⟨h, ops, he, hl⟩ := encChain true px hi
  exact ⟨h, ops, by rw [encode_eq_encode_expand]; exact he, hl⟩

end Sys2Proof.Laws.EncodedLength
end

