-- ==== Sys2Proof/Laws/Runs.lean ====
section
/-! SUPPORT. Laws of runs. -/

namespace Sys2Proof.Machine

@[simp] theorem runSteps_zero (s : State) : runSteps 0 s = .next s := rfl

theorem runSteps_succ (k : Nat) (s : State) : runSteps (k + 1) s =
    match step s with
    | .next t => runSteps k t
    | .fault f => .fault f
    | .refused r => .refused r := rfl

/-- The host's run of the core is the machine's. -/
theorem core_run (k : Nat) (s : State) : Host.Core.run Sys2Proof.core k s = runSteps k s := by
  induction k generalizing s with
  | zero => rfl
  | succ k ih =>
    refine (Host.Core.run.eq_2 Sys2Proof.core s k).trans ?_
    rw [runSteps_succ]
    cases hs : step s with
    | next t => rw [show Sys2Proof.core.step s = .next t from hs]; exact ih t
    | fault f => rw [show Sys2Proof.core.step s = .fault f from hs]; rfl
    | refused r => rw [show Sys2Proof.core.step s = .refused r from hs]; rfl

/-- A run in two parts. -/
theorem runSteps_add {a b : Nat} {s t : State} (h : runSteps a s = .next t) : runSteps (a + b) s = runSteps b t := by
  induction a generalizing s with
  | zero => cases h; simp
  | succ a ih =>
    rw [runSteps_succ] at h
    rw [show a + 1 + b = (a + b) + 1 by omega, runSteps_succ]
    cases hs : step s <;> rw [hs] at h
    · exact ih h
    · cases h
    · cases h

end Sys2Proof.Machine
end

