-- ==== Sys2Proof/Tests/Slice0.lean ====
section
/-! SUPPORT. Tests. Expected values are those of spec/95_test_vectors.md (the vector is named at each test) or written out by
hand from the encodings of spec/30_encoding.md; a witness shows a state that meets the hypotheses of one statement. -/

namespace Sys2Proof.Tests

open Sys2Proof.Machine

/-! ### Well-formedness: an ill-formed term for each check -/

theorem smoke_chain_too_long (x : Pixel) : ¬ (Instr.encChain false (List.replicate (lMax + 1) x)).WellFormed := by
  rw [Instr.WellFormed, Instr.pixels, List.length_replicate]
  exact Nat.not_succ_le_self lMax

theorem smoke_frame_too_long (x : Pixel) : ¬ (Instr.encFrame (List.replicate (lMax + 1) x)).WellFormed := by
  rw [Instr.WellFormed, Instr.pixels, List.length_replicate]
  exact Nat.not_succ_le_self lMax

theorem smoke_wf1_n_zero : { Config.fixture with n := 0 }.firstFailed = some .wf1 := by decide

theorem smoke_wf1_n_nine : { Config.fixture with n := 9 }.firstFailed = some .wf1 := by decide

theorem smoke_wf2_pattern_too_wide : { Config.fixture with pat0 := 0x08 }.firstFailed = some .wf2 := by decide

theorem smoke_wf3_equal_popcounts : { Config.fixture with pat1 := 0x02 }.firstFailed = some .wf3 := by decide

theorem smoke_wf4_order_six : { Config.fixture with order := 6 }.firstFailed = some .wf4 := by decide

theorem smoke_wf5_reserved_bit : { Config.fixture with rsvd1High := 1 }.firstFailed = some .wf5 := by decide

theorem smoke_wf6_padding_too_long : { Config.fixture with padLen := 65536 }.firstFailed = some .wf6 := by decide

theorem fixture_wf : Config.fixture.WellFormed := Config.firstFailed_eq_none.mp (by decide)

/-! ### Decoding: words written out from R47 and R48 -/

theorem test_decode_encBit : decode [0b00010000000000000000000000000001] = .ok (.encBit true, []) := by decide

theorem test_decode_encChan : decode [0b00100000000000000000000010100101] = .ok (.encChan 0xA5, []) := by decide

theorem test_decode_encPix : decode [0b00110000000100000010000000110000] = .ok (.encPix 0x10 0x20 0x30, []) := by decide

theorem test_decode_encChain : decode [0b01000000000000000000000000000001, 0x00FF0080, 7] =
    .ok (.encChain false [⟨0xFF, 0x00, 0x80⟩], [7]) := by decide

/-- The pseudo-commands' words decode to their expansions (R56). -/
theorem test_decode_latch : decode [0x48000000] = .ok (.encChain true [], []) := by decide

theorem test_decode_encEmpty : decode [0x40000000] = .ok (.encChain false [], []) := by decide

theorem test_decode_encFrame : decode [0x48000001, 0x00010203] = .ok (.encChain true [⟨1, 2, 3⟩], []) := by decide

/-- V-ERR4, V-BIT14, V-CHN26, V-PIX14. -/
theorem test_decode_rejects_by_name :
    decode [0x5FFFFFFF] = .error (.command ⟨.badOp, 0x5FFFFFFF⟩) ∧
    decode [0x18000001] = .error (.command ⟨.rsvdHdr, 0x18000001⟩) ∧
    decode [0x200001FF] = .error (.command ⟨.rsvdHdr, 0x200001FF⟩) ∧
    decode [0x31000000] = .error (.command ⟨.rsvdHdr, 0x31000000⟩) := by decide

/-- V-CH14, V-CH15, V-CH16. -/
theorem test_decode_rejects_pixels_by_name :
    decode [0x40000002, 0x00000000, 0x02000000] = .error (.command ⟨.rsvdPix, 2⟩) ∧
    decode [0x40000002, 0xFF000000, 0xFF000000] = .error (.command ⟨.rsvdPix, 1⟩) ∧
    decode [0x41000001, 0xFF000000] = .error (.command ⟨.rsvdHdr, 0x41000001⟩) ∧
    decode [0x40000001] = .error .incomplete := by decide

theorem test_decodeBytes_big_endian : decodeBytes [0x20, 0x00, 0x00, 0xA5] = .ok (.encChan 0xA5, []) := by decide

theorem test_table_word_chain_of_zeros :
    decodeTableWord 32 0x48000002 = some (.encChain true [⟨0, 0, 0⟩, ⟨0, 0, 0⟩]) := by decide

/-- 10_state.md R10's example. -/
theorem test_config_words : Config.ofWords 0x00060423 0x00000004 = Config.fixture := by decide

theorem test_make_fixture : makeInstance 0x00060423 0x00000004 = .next State.reset := by rfl

/-- V-CF2. -/
theorem test_make_refuses : refusalOf (makeInstance 0x00060420 4) = some (.illFormedConfig .wf1) := by decide

/-! ### Commands -/

/-- A fresh machine of configuration words `cfg0`, `cfg1` to which the host sends `ws`. -/
def sentTo (cfg0 cfg1 : Word) (ws : List Word) : State := launch (Config.ofWords cfg0 cfg1) (sends ws)

/-- What a machine is observed by after one step. -/
def afterStep (s : State) : Option (List Response × List Word) := (stateOf (step s)).map observation

/-- What a machine is observed by after its whole run. -/
def afterRun (s : State) : Option (List Response × List Word) := (stateOf (runAll s)).map observation

/-- V-BIT10 (configuration E). -/
theorem test_encBit : afterStep (sentTo 0x001C1805 1 [0x10000001]) =
    some ([.okBits [true, true, true, false, false]], []) := by decide

/-- V-BIT6's last column. -/
theorem test_groupWord : groupWord (encBit (Config.ofWords 0x00F8C028 3) true) = 0xF8 := by decide

/-- V-CHN5 (configuration A). -/
theorem test_encChan : afterStep (sentTo 0x00060423 4 [0x200000A5]) = some ([.okBytes [0xD3, 0x49, 0xA6]], []) := by
  decide

/-- V-CHN24 (configuration E: groups straddle bytes unevenly). -/
theorem test_encChan_straddles : encChan (Config.ofWords 0x001C1805 1) 0xA5 = [0xE6, 0x39, 0x8C, 0x73, 0x1C] := by decide

/-- V-PIX11 (configuration D, order B-G-R). -/
theorem test_encPix : afterStep (sentTo 0x000C0854 2 [0x30123456]) =
    some ([.okBytes [0x8C, 0x8C, 0x8C, 0xC8, 0x88, 0xCC, 0x8C, 0x88, 0x88, 0x8C, 0x88, 0xC8]], []) := by decide

/-- V-PIX4 (configuration A with ORDER = 3, G-B-R). -/
theorem test_encPix_order : encPix { Config.fixture with order := 3 } ⟨0x10, 0x20, 0x30⟩ =
    [0x93, 0x49, 0x24, 0x93, 0x69, 0x24, 0x92, 0x69, 0x24] := by decide

/-- V-CH6 (configuration A). -/
theorem test_encChain : encChain Config.fixture true [⟨0xFF, 0x00, 0x80⟩, ⟨0x01, 0x02, 0x03⟩] =
    [0x92, 0x49, 0x24, 0xDB, 0x6D, 0xB6, 0xD2, 0x49, 0x24, 0x92, 0x49, 0x34, 0x92, 0x49, 0x26, 0x92, 0x49, 0x36,
      0, 0, 0, 0] := by decide

/-- V-CH17: a pixel word that looks like a header. -/
theorem test_pixel_word_like_header : afterRun (sentTo 0x00060423 4 [0x40000001, 0x40000000]) =
    some ([.err .rsvdPix 1], []) := by decide

/-- V-CH2. -/
theorem test_latch : (stateOf (exec .latch State.reset)).map observation = some ([.okBytes [0, 0, 0, 0]], []) := by decide

/-- V-CH1. -/
theorem test_encEmpty : (stateOf (exec .encEmpty State.reset)).map observation = some ([.okBytes []], []) := by decide

/-- V-CH5. -/
theorem test_encFrame : (stateOf (exec (.encFrame [⟨0xFF, 0xFF, 0xFF⟩]) State.reset)).map observation =
    some ([.okBytes [0xDB, 0x6D, 0xB6, 0xDB, 0x6D, 0xB6, 0xDB, 0x6D, 0xB6, 0, 0, 0, 0]], []) := by decide

/-- V-CH4, as the host offers it to the first step after reset. -/
theorem test_withFetchWord : afterStep (State.reset.withFetchWord 32 0x40000001) =
    some ([.okBytes [0x92, 0x49, 0x24, 0x92, 0x49, 0x24, 0x92, 0x49, 0x24]], []) := by decide

/-- 95_test_vectors.md section 2.9. -/
theorem test_reset_discards : afterRun (launch Config.fixture
      [.word 0x40000003, .word 0x00010203, .reset, .word 0x00010203, .word 0x40000000]) =
    some ([.err .badOp 0x00010203, .okBytes []], []) := by decide

/-- V-ERR6. -/
theorem test_longest_header_waits : afterRun (sentTo 0x00060423 4 [0x48FFFFFF]) = some ([], [0x48FFFFFF]) := by decide

/-- 60_exceptions.md R81. -/
theorem test_status_numbers : [Response.okBits [], .okBytes [], .err .badOp 0, .err .rsvdHdr 0, .err .rsvdPix 1].map status =
    [0, 0, 1, 2, 3] := by decide

/-- V-DEC4 (configuration D). -/
theorem test_observer : decChan (Config.ofWords 0x000C0854 2) 2 [0xCC, 0xCC, 0xCC, 0xCC] = 0xFF ∧
    decChanMaj (Config.ofWords 0x000C0854 2) [0xCC, 0xCC, 0xCC, 0xCC] = 0x00 := by decide

/-- 20_memory.md R35, R37: "100" is one high unit and two low ones. -/
theorem test_line : (lineOf (encChan Config.fixture 0x00)).take 4 = [.high, .low, .low, .high] := by decide

/-- Program P1 of 95_test_vectors.md, as text (R55, R56). -/
theorem test_assembler :
    assembleText "enc.frame ; two pixels\npx 0xFF, 0x00, 0x80\npx 0x01, 0x02, 3\n\nlatch\nenc.chan 165".toList =
      .ok [0x48000002, 0x00FF0080, 0x00010203, 0x48000000, 0x200000A5] := by decide

theorem test_assembler_rejects : assembleText "px 1, 2, 3".toList = .error .pxOutsideChain ∧
    assembleText "enc.bit 2".toList = .error .operandRange ∧ assembleText "nop".toList = .error .unknownMnemonic := by
  decide

/-! ### Witnesses: a state and operands that meet the hypotheses of each statement -/

theorem witness_DecodeInvertsEncode : (Instr.encChain true [⟨1, 2, 3⟩]).WellFormed := by decide

theorem witness_DecodeInvertsEncode_longest : (Instr.encFrame (List.replicate lMax ⟨1, 2, 3⟩)).WellFormed := by
  simp [Instr.WellFormed, Instr.pixels]

theorem witness_EncodeInvertsDecode : decode [0x48000001, 0x00010203, 5] = .ok (.encChain true [⟨1, 2, 3⟩], [5]) := by decide

theorem witness_MessageLengthFromHeader :
    (0x40FFFFFF#32).extractLsb' 28 4 = 0x4#4 ∧ (0x50FFFFFF#32).extractLsb' 28 4 ≠ 0x4#4 := by decide

theorem witness_AssemblerEncodesCommands :
    ∀ i ∈ [Instr.encFrame [⟨1, 2, 3⟩], .latch, .encChain false [⟨4, 5, 6⟩], .encBit true], i.WellFormed := by decide

theorem witness_StepRunsDecodedCommand :
    let s : State := { launch Config.fixture (sends [0x00010203]) with rx := [0x40000001] }
    s.cfg.WellFormed ∧ s.inbox = .word 0x00010203 :: [] ∧
      decode (s.rx ++ [0x00010203]) = .ok (.encChain false [⟨1, 2, 3⟩], []) := ⟨fixture_wf, rfl, by decide⟩

theorem witness_IncompleteMessageIsHeld :
    let s : State := { launch Config.fixture (sends [0x00010203]) with rx := [0x40000002] }
    s.cfg.WellFormed ∧ s.inbox = .word 0x00010203 :: [] ∧ s.rx ++ [0x00010203] = 0x40000002 :: [0x00010203] ∧
      [0x40000002#32, 0x00010203].length < msgLen 0x40000002 := ⟨fixture_wf, rfl, rfl, by decide⟩

theorem witness_MalformedMessageIsAnswered :
    let s := launch Config.fixture (sends [0x10000002])
    s.cfg.WellFormed ∧ s.inbox = .word 0x10000002 :: [] ∧ s.rx ++ [0x10000002] = 0x10000002 :: [] ∧
      [0x10000002#32].length = msgLen 0x10000002 ∧
      decode (s.rx ++ [0x10000002]) = .error (.command ⟨.rsvdHdr, 0x10000002⟩) :=
  ⟨fixture_wf, rfl, rfl, by decide, by decide⟩

theorem witness_ReservedOpGivesBadOp :
    let s := launch Config.fixture (sends [0x0FFFFFFF])
    s.cfg.WellFormed ∧ s.rx = [] ∧ s.inbox = .word 0x0FFFFFFF :: [] ∧ (0x0FFFFFFF#32).extractLsb' 28 4 = 0x0#4 :=
  ⟨fixture_wf, rfl, rfl, by decide⟩

theorem witness_ReservedOpGivesBadOp_above :
    0x5#4 ≤ (0x50000000#32).extractLsb' 28 4 ∧ 0x5#4 ≤ (0xFFFFFFFF#32).extractLsb' 28 4 := by decide

theorem witness_ReservedHeaderBitGivesRsvdHdr :
    let s : State := { launch Config.fixture (sends [0xFF000000]) with rx := [0x41000001] }
    s.cfg.WellFormed ∧ s.inbox = .word 0xFF000000 :: [] ∧ s.rx ++ [0xFF000000] = 0x41000001 :: [0xFF000000] ∧
      [0x41000001#32, 0xFF000000].length = msgLen 0x41000001 ∧
      (0x41000001#32).extractLsb' 28 4 = 0x4#4 ∧ 0x41000001#32 &&& 0x07000000#32 ≠ 0#32 :=
  ⟨fixture_wf, rfl, rfl, by decide, by decide, by decide⟩

theorem witness_ReservedHeaderBitGivesRsvdHdr_single :
    ((0x10000002#32).extractLsb' 28 4 = 0x1#4 ∧ 0x10000002#32 &&& 0x0FFFFFFE#32 ≠ 0#32 ∧ msgLen 0x10000002 = 1) ∧
    ((0x20000100#32).extractLsb' 28 4 = 0x2#4 ∧ 0x20000100#32 &&& 0x0FFFFF00#32 ≠ 0#32 ∧ msgLen 0x20000100 = 1) ∧
    ((0x31000000#32).extractLsb' 28 4 = 0x3#4 ∧ 0x31000000#32 &&& 0x0F000000#32 ≠ 0#32 ∧ msgLen 0x31000000 = 1) := by
  decide

theorem witness_FirstReservedPixelGivesRsvdPix :
    let s : State := { launch Config.fixture (sends [0x02000000]) with rx := [0x40000002, 0x00000000] }
    s.cfg.WellFormed ∧ s.inbox = .word 0x02000000 :: [] ∧
      s.rx ++ [0x02000000] = 0x40000002 :: [0x00000000, 0x02000000] ∧
      [0x40000002#32, 0x00000000, 0x02000000].length = msgLen 0x40000002 ∧
      (0x40000002#32).extractLsb' 28 4 = 0x4#4 ∧ 0x40000002#32 &&& 0x07000000#32 = 0#32 ∧
      [0x00000000#32, 0x02000000][1]? = some 0x02000000#32 ∧ 0x02000000#32 &&& 0xFF000000#32 ≠ 0#32 ∧
      ∀ j x, j < 1 → [0x00000000#32, 0x02000000][j]? = some x → x &&& 0xFF000000#32 = 0#32 := by
  refine ⟨fixture_wf, rfl, rfl, by decide, by decide, by decide, rfl, by decide, ?_⟩
  intro j x hj hx
  obtain rfl : j = 0 := by omega
  cases hx
  decide

theorem witness_ResetEmptiesRx :
    let s : State := { launch Config.fixture [.reset] with rx := [0x40000002] }
    s.cfg.WellFormed ∧ s.inbox = .reset :: [] := ⟨fixture_wf, rfl⟩

theorem witness_CutMessageLeavesNoTrace :
    let s := (launch Config.fixture []).push (.okBits [true, true, false])
    s.cfg.WellFormed ∧ s.rx = [] ∧ RxOk [0x40000002, 0x00010203] :=
  ⟨fixture_wf, rfl, by unfold RxOk; decide⟩

theorem witness_BeginningOfMessageIsStuck :
    Config.fixture.WellFormed ∧ [0x40000002#32, 0x00010203].length < msgLen 0x40000002 := ⟨fixture_wf, by decide⟩

theorem witness_IdleStepChangesNothing : State.reset.cfg.WellFormed ∧ State.reset.inbox = [] := ⟨fixture_wf, rfl⟩

theorem witness_CommandsAnsweredInOrder : Config.fixture.WellFormed ∧
    ∀ i ∈ [Instr.encBit true, .encChan 0xA5, .encPix 1 2 3, .encChain true [⟨1, 2, 3⟩], .latch], i.WellFormed :=
  ⟨fixture_wf, by decide⟩

theorem witness_PortRefinesMessageReading : Config.fixture.WellFormed := fixture_wf

theorem witness_SharedPortMixesMessages : Config.fixture.WellFormed := fixture_wf

theorem witness_IllFormedConfigIsRefused : ¬ (launch { Config.fixture with n := 0 } []).cfg.WellFormed := fun h =>
  absurd (Config.firstFailed_eq_none.mpr h) (by decide)

theorem witness_WellFormedNeverStops : (launch Config.fixture (sends [0x0])).cfg.WellFormed := fixture_wf

theorem witness_MachineMadeIffWellFormed : makeInstance 0x00F8C028 3 = .next (launch (Config.ofWords 0x00F8C028 3) []) := by
  rfl

/-- V-CF2: N = 0 fails WF1 and WF2, and the first is named. -/
theorem witness_MachineMadeIffWellFormed_refused :
    ¬ (Config.ofWords 0x00060420 4).WellFormed ∧ makeInstance 0x00060420 4 = .refused (.illFormedConfig .wf1) ∧
    (Config.ofWords 0x00060420 4).meets .wf2 = false :=
  ⟨fun h => absurd (Config.firstFailed_eq_none.mpr h) (by decide), rfl, by decide⟩

theorem witness_ConfigWordsHoldRecord : (Config.ofWords 0x001C1805 1).WellFormed :=
  Config.firstFailed_eq_none.mp (by decide)

theorem witness_ConfigurationNeverChanges :
    runSteps 1 (launch Config.fixture [.reset]) = .next (launch Config.fixture []) := by rfl

/-- For the statements whose one hypothesis is a well-formed configuration of a state. -/
theorem witness_EncBitAnswersPattern : State.reset.cfg.WellFormed := fixture_wf

theorem witness_EncChanAnswersClosedForm : State.reset.cfg.WellFormed ∧ 2 < State.reset.cfg.n := ⟨fixture_wf, by decide⟩

theorem witness_EncPixAnswersWireOrder : State.reset.cfg.WellFormed ∧ State.reset.cfg.order = 2 ∧
    ∀ o : BitVec 3, o.toNat ≤ 5 → { Config.fixture with order := o }.firstFailed = none :=
  ⟨fixture_wf, rfl, by decide⟩

theorem witness_EncChainAnswersFrame : State.reset.cfg.WellFormed := fixture_wf

theorem witness_PseudoCommandsAnswerAsExpansions : State.reset.cfg.WellFormed := fixture_wf

theorem witness_CommandsOnlyRespond :
    exec (.encBit true) State.reset = .next (State.reset.push (.okBits [true, true, false])) := by rfl

theorem witness_ResponseIndependentOfPast :
    let s := launch Config.fixture (sends [0x10000001])
    let s' := (launch Config.fixture (sends [0x10000001, 0x0])).push (.okBytes [])
    s.cfg = s'.cfg ∧ s.rx = s'.rx ∧ s.inbox = .word 0x10000001 :: [] ∧ s'.inbox = .word 0x10000001 :: [.word 0x0] ∧
      (stateOf (step s)).isSome ∧ (stateOf (step s')).isSome := by decide

theorem witness_StepAddsAtMostOneResponse : (stateOf (step (launch Config.fixture (sends [0x10000001])))).isSome := by decide

theorem witness_StepKeepsInvariant : Inv (launch Config.fixture (sends [0x10000001])) :=
  ⟨fixture_wf, trivial, by simp [launch]⟩

theorem witness_RxHoldsAtMostLMaxWords : Inv { launch Config.fixture [] with rx := [0x48FFFFFF] } :=
  ⟨fixture_wf, by unfold RxOk; decide, by simp [launch]⟩

theorem witness_PackAndBitsAreInverse :
    [true, false, false, true, false, false, true, false].length % 8 = 0 ∧
      0 < [true, false, false, true, false, false, true, false].length / 8 := by decide

theorem witness_GroupLaws : Config.fixture.WellFormed := fixture_wf

theorem witness_GroupWordIsPattern : Config.fixture.WellFormed := fixture_wf

theorem witness_ChannelLengthAndInjectivity : Config.fixture.WellFormed := fixture_wf

theorem witness_ThresholdTellsGroupsApart : Config.fixture.WellFormed ∧ ThresholdOk Config.fixture 2 :=
  ⟨fixture_wf, by unfold ThresholdOk; decide⟩

theorem witness_ThresholdRoundTrip : (Config.ofWords 0x00F8C028 3).WellFormed ∧ ThresholdOk (Config.ofWords 0x00F8C028 3) 3 ∧
    ThresholdOk (Config.ofWords 0x00F8C028 3) 5 :=
  ⟨Config.firstFailed_eq_none.mp (by decide), by unfold ThresholdOk; decide, by unfold ThresholdOk; decide⟩

theorem witness_MajorityRoundTripCondition : Config.fixture.WellFormed := fixture_wf

theorem witness_PixelSplitsIntoChannels :
    Config.fixture.WellFormed ∧ (seq Config.fixture.order)[2]? = some .blue := ⟨fixture_wf, rfl⟩

theorem witness_FrameLength : Config.fixture.WellFormed ∧ [(⟨1, 2, 3⟩ : Pixel)].length ≤ 2 ^ 24 - 1 := ⟨fixture_wf, by decide⟩

theorem witness_FrameOffsets : Config.fixture.WellFormed ∧ [(⟨1, 2, 3⟩ : Pixel)][0]? = some ⟨1, 2, 3⟩ ∧
    (seq Config.fixture.order)[2]? = some .blue ∧ 7 < 8 ∧ 2 < Config.fixture.n ∧ 3 < Config.fixture.padLen :=
  ⟨fixture_wf, rfl, rfl, by decide, by decide, by decide⟩

theorem witness_LineTimes : Config.fixture.WellFormed := fixture_wf

theorem witness_TransportWriteLeavesBlock :
    let s := launch Config.fixture [.write (zeros 4)]
    s.cfg.WellFormed ∧ s.inbox = .write (zeros 4) :: [] := ⟨fixture_wf, rfl⟩

theorem witness_TransportWriteLeavesBlock_lengths :
    (zeros (Config.transportMaxBytes + 1)).length > Config.transportMaxBytes ∧
      (zeros Config.transportMaxBytes).length ≤ Config.transportMaxBytes := by simp [zeros]

theorem witness_TransportSetupLeavesBlock :
    let s := launch Config.fixture [.setupTransport ⟨true, true⟩]
    s.cfg.WellFormed ∧ s.inbox = .setupTransport ⟨true, true⟩ :: [] := ⟨fixture_wf, rfl⟩

theorem witness_MachinesDoNotInteract :
    let jobs : List (Config × List Word) :=
      [(Config.fixture, [0x40000001, 0x00010203]), (Config.ofWords 0x00010001 0, [0x10000001])]
    (∀ j ∈ jobs, j.1.WellFormed) ∧ ∀ k j, jobs[k]? = some j → [0, 1, 0].count k = j.2.length := by
  refine ⟨?_, fun k j h => ?_⟩
  · simp only [List.forall_mem_cons]
    refine ⟨fixture_wf, fun c => by cases c <;> decide, by simp⟩
  · match k, h with
    | 0, h => cases h; rfl
    | 1, h => cases h; rfl
    | k + 2, h => simp at h

end Sys2Proof.Tests
end

section
/-! SUPPORT. Proofs about runs of any length: what every step keeps, every run keeps. -/

namespace Sys2Proof.Machine

/-- A run of `k + 1` steps that answers a state is a step that answers one and a run of `k` steps from there. -/
theorem runSteps_succ_next {k : Nat} {s t : State} :
    runSteps (k + 1) s = .next t ↔ ∃ u, step s = .next u ∧ runSteps k u = .next t := by
  rw [runSteps_succ]
  cases step s <;> simp

/-- The induction of runs: a reflexive and transitive relation between the two ends of each step relates the two ends of
each run. -/
theorem runSteps_induction {R : State → State → Prop} (refl : ∀ s, R s s)
    (trans : ∀ {s u t}, R s u → R u t → R s t) (of_step : ∀ {s t}, step s = .next t → R s t) {k : Nat} {s t : State}
    (h : runSteps k s = .next t) : R s t := by
  induction k generalizing s with
  | zero => cases h; exact refl _
  | succ k ih =>
    obtain ⟨u, hstep, hrun⟩ := runSteps_succ_next.mp h
    exact trans (of_step hstep) (ih hrun)

/-- No event changes the configuration (10_state.md R13, 70_reset_and_hazards.md R93). -/
theorem step_cfg {s t : State} (h : step s = .next t) : t.cfg = s.cfg := by
  rw [step_of_wf (wf_of_step h)] at h
  split at h
  case h_1 => cases h; rfl
  case h_2 w es _ =>
    split at h
    · cases h; simp
    · cases h; simp
  case h_3 => cases h; simp
  case h_4 => cases h; simp
  case h_5 => cases h; simp

/-- Settles O26: every step keeps the configuration, so every run does. -/
theorem configurationNeverChanges : Obligations.ConfigurationNeverChanges := fun _ _ _ h =>
  runSteps_induction (R := fun s t => t.cfg = s.cfg) (fun _ => rfl) (fun hsu hut => hut.trans hsu) step_cfg h

end Sys2Proof.Machine
end

section
/-! SUPPORT. Proofs about the bytes of a packed string (00_scope.md R7). -/

namespace Sys2Proof.Machine

/-- The number that 00_scope.md R7 states for byte `k` of `pack s`: bit `8k + j` of the string has weight `2^(7 - j)`. -/
def packedByte (s : BitString) (k : Nat) : Nat :=
  ((List.range 8).map fun j => (s.getD (8 * k + j) false).toNat * 2 ^ (7 - j)).sum

/-- Eight bits are worth at most 255, so the byte made of them loses none. -/
theorem byteOfBits_toNat (b7 b6 b5 b4 b3 b2 b1 b0 : Bool) :
    (byteOfBits b7 b6 b5 b4 b3 b2 b1 b0).toNat =
      b7.toNat * 128 + b6.toNat * 64 + b5.toNat * 32 + b4.toNat * 16 + b3.toNat * 8 + b2.toNat * 4 + b1.toNat * 2 +
        b0.toNat := by
  rw [byteOfBits, BitVec.toNat_ofNat, Nat.mod_eq_of_lt]
  have := b7.toNat_le; have := b6.toNat_le; have := b5.toNat_le; have := b4.toNat_le
  have := b3.toNat_le; have := b2.toNat_le; have := b1.toNat_le; have := b0.toNat_le
  omega

/-- Byte 0 is made of the string's first eight bits. -/
theorem packedByte_zero (b7 b6 b5 b4 b3 b2 b1 b0 : Bool) (s : BitString) :
    packedByte (b7 :: b6 :: b5 :: b4 :: b3 :: b2 :: b1 :: b0 :: s) 0 =
      (byteOfBits b7 b6 b5 b4 b3 b2 b1 b0).toNat := by
  simp [packedByte, byteOfBits_toNat, List.range, List.range.loop, Nat.add_assoc]

/-- A later byte is the one before it of the string without its first eight bits. -/
theorem packedByte_succ (b7 b6 b5 b4 b3 b2 b1 b0 : Bool) (s : BitString) (k : Nat) :
    packedByte (b7 :: b6 :: b5 :: b4 :: b3 :: b2 :: b1 :: b0 :: s) (k + 1) = packedByte s k := by
  have shift (j : Nat) : 8 * (k + 1) + j = 8 * k + j + 8 := by omega
  simp only [packedByte, shift, List.getD_cons_succ]

/-- The bytes of `pack s` are the stated ones. -/
theorem pack_getElem?_toNat : ∀ s : BitString, s.length % 8 = 0 →
    ∀ k, k < s.length / 8 → ((pack s)[k]?).map (·.toNat) = some (packedByte s k) :=
  eight_induction (fun k hk => absurd hk (by simp)) fun b7 b6 b5 b4 b3 b2 b1 b0 s _ ih k hk => by
    cases k with
    | zero => rw [packedByte_zero]; rfl
    | succ k =>
      rw [packedByte_succ, pack, List.getElem?_cons_succ]
      exact ih k (by simp only [List.length_cons] at hk; omega)

/-- Settles O38: the two inverse laws, the length and the bytes, the last by induction on groups of eight bits. -/
theorem packAndBitsAreInverse : Obligations.PackAndBitsAreInverse :=
  ⟨fun s h8 => ⟨bits_pack s h8, pack_length s h8, pack_getElem?_toNat s h8⟩, pack_bits⟩

end Sys2Proof.Machine
end

section
/-! SUPPORT. Proofs about what a command and what one word of the port bring about (10_state.md R22, 30_encoding.md R50). -/

namespace Sys2Proof.Machine

/-! ### The frame of the commands -/

/-- Settles O32: a command that runs is one response, `exec_next`. -/
theorem commandsOnlyRespond : Obligations.CommandsOnlyRespond := by
  intro i s t h
  obtain ⟨-, rfl⟩ := exec_next.mp h
  exact ⟨rfl, rfl, rfl, rfl, rfl⟩

/-! ### What one word of the port brings about -/

/-- rx after word `w` (30_encoding.md R50). -/
def rxAfter (rx : List Word) (w : Word) : List Word :=
  if rx.length + 1 < msgLen (headerWith rx w) then rx ++ [w] else []

/-- The responses that word `w` brings about: none, or that to the message it completes (30_encoding.md R50). -/
def repliesAfter (cfg : Config) (rx : List Word) (w : Word) : List Response :=
  if rx.length + 1 < msgLen (headerWith rx w) then []
  else [messageReply cfg (headerWith rx w) (operandsWith rx w)]

/-- A step that takes a word changes rx and adds responses, by configuration, rx and the word alone. -/
theorem step_word {s : State} {w : Word} {es : List Event} (hw : s.cfg.WellFormed) (hin : s.inbox = .word w :: es) :
    step s = .next { s with inbox := es, rx := rxAfter s.rx w,
                            responses := s.responses ++ repliesAfter s.cfg s.rx w } := by
  rw [step_of_wf hw, hin, rxAfter, repliesAfter]
  dsimp only
  split
  · rw [List.append_nil]; rfl
  · rfl

/-- Settles O33: two states with one configuration and one rx answer a word alike, by `step_word`. -/
theorem responseIndependentOfPast : Obligations.ResponseIndependentOfPast := by
  intro s s' t t' w es es' hcfg hrx hin hin' ht ht'
  rw [step_word (wf_of_step ht) hin] at ht
  rw [step_word (wf_of_step ht') hin', ← hcfg, ← hrx] at ht'
  cases ht
  cases ht'
  exact ⟨rfl, repliesAfter s.cfg s.rx w, rfl, rfl⟩

end Sys2Proof.Machine
end

section
/-! SUPPORT. Proofs about the invariant of the machine (10_state.md R16, 43_frame.md R75, 60_exceptions.md R81). -/

namespace Sys2Proof

/-! ### What a whole message decodes to -/

theorem msgLen_le (h : Word) : msgLen h ≤ lMax + 1 := by
  by_cases ho : opField h = 4
  · have := lenField_le h
    rw [msgLen_chain ho]; omega
  · rw [msgLen_single ho]; omega

theorem pixelWords_length_le (h : Word) (ops : List Word) : (pixelWords h ops).length ≤ lMax :=
  (List.length_take_le _ _).trans (lenField_le h)

theorem firstBadPixel_lt {ws : List Word} {k : Nat} (h : firstBadPixel ws = some k) : k < ws.length :=
  (List.findIdx?_eq_some_iff_getElem.mp h).1

/-- A reserved header bit of a legal opcode decides, whatever the pixel words are (60_exceptions.md R82). -/
theorem decodeMessage_rsvdHdr {h : Word} (ho : 1 ≤ opField h ∧ opField h ≤ 4) (hr : reservedHeaderBits h ≠ 0)
    (ops : List Word) : decodeMessage h ops = .error ⟨.rsvdHdr, h⟩ := by
  obtain ho | ho | ho | ho : opField h = 1 ∨ opField h = 2 ∨ opField h = 3 ∨ opField h = 4 := by omega
  all_goals simp only [decodeMessage, ho, hr, if_false]

/-- All the errors a whole message can be answered with (60_exceptions.md R81). -/
theorem decodeMessage_error {h : Word} {ops : List Word} {e : CmdError} (hd : decodeMessage h ops = .error e) :
    (e = ⟨.badOp, h⟩ ∧ (opField h = 0 ∨ 5 ≤ opField h)) ∨
    (e = ⟨.rsvdHdr, h⟩ ∧ (1 ≤ opField h ∧ opField h ≤ 4) ∧ reservedHeaderBits h ≠ 0) ∨
    ∃ k, e = ⟨.rsvdPix, BitVec.ofNat 32 (k + 1)⟩ ∧ firstBadPixel (pixelWords h ops) = some k := by
  by_cases hbad : opField h = 0 ∨ 5 ≤ opField h
  · rw [decodeMessage_badOp hbad] at hd
    cases hd
    exact .inl ⟨rfl, hbad⟩
  by_cases hr : reservedHeaderBits h = 0
  · by_cases hchain : opField h = 4
    · simp only [decodeMessage, hchain, hr, if_true] at hd
      split at hd
      case h_1 k hk => cases hd; exact .inr (.inr ⟨k, rfl, hk⟩)
      case h_2 => cases hd
    · obtain ho | ho | ho : opField h = 1 ∨ opField h = 2 ∨ opField h = 3 := by omega
      all_goals simp [decodeMessage, ho, hr] at hd
  · have hop : 1 ≤ opField h ∧ opField h ≤ 4 := by omega
    rw [decodeMessage_rsvdHdr hop hr] at hd
    cases hd
    exact .inr (.inl ⟨rfl, hop, hr⟩)

/-- A command that a message carries is well-formed (10_state.md R20). -/
theorem wellFormed_of_decodeMessage {h : Word} {ops : List Word} {i : Instr} (hd : decodeMessage h ops = .ok i) :
    i.WellFormed := by
  unfold decodeMessage at hd
  split at hd
  case h_4 =>
    split at hd
    · split at hd
      · cases hd
      · cases hd; simpa [Instr.WellFormed, Instr.pixels] using pixelWords_length_le h ops
    · cases hd
  case h_5 => cases hd
  all_goals
    split at hd
    · cases hd; exact Nat.zero_le _
    · cases hd

namespace Machine

/-! ### The shape of every response -/

/-- The longest buffer is that of the longest frame at eight physical bits per logical bit and full padding
(43_frame.md R75): 3 * 8 * L_MAX + 65535 bytes. -/
theorem encChain_length_le {cfg : Config} (hw : cfg.WellFormed) (p : Bool) {px : List Pixel} (hp : px.length ≤ lMax) :
    (encChain cfg p px).length ≤ 402718695 := by
  obtain ⟨⟨-, hn⟩, -, -, -, -, hpad⟩ := Config.wellFormed_iff.mp hw
  have hpix : cfg.n * px.length ≤ 8 * lMax := Nat.mul_le_mul hn hp
  have hlen : (pad cfg p).length ≤ 65535 := by cases p <;> simp [zeros, hpad]
  rw [encChain_length hw, Nat.mul_assoc]
  unfold lMax at hpix
  omega

theorem responseOk_respondTo {cfg : Config} (hw : cfg.WellFormed) {i : Instr} (hi : i.WellFormed) :
    ResponseOk cfg (respondTo cfg i) := by
  have hn : cfg.n ≤ 8 := (Config.wellFormed_iff.mp hw).1.2
  have hframe (p : Bool) : (pad cfg p).length ≤ 402718695 := encChain_length_le hw p (px := []) (Nat.zero_le _)
  cases i with
  | encBit b => cases b <;> simp [respondTo, ResponseOk]
  | encChan v => simp only [respondTo, ResponseOk, encChan_length]; omega
  | encPix r g b => simp only [respondTo, ResponseOk, encPix_length hw]; omega
  | encChain p px => exact encChain_length_le hw p hi
  | latch => exact hframe true
  | encEmpty => exact hframe false
  | encFrame px => exact encChain_length_le hw true hi

theorem responseOk_err {cfg : Config} {h : Word} {ops : List Word} {e : CmdError}
    (hd : decodeMessage h ops = .error e) : ResponseOk cfg (.err e.code e.info) := by
  rcases decodeMessage_error hd with ⟨rfl, ho⟩ | ⟨rfl, ho, hr⟩ | ⟨k, rfl, hk⟩
  · exact ho
  · exact ⟨ho, hr⟩
  · have hlt : k < lMax := (firstBadPixel_lt hk).trans_le (pixelWords_length_le h ops)
    have hk32 : k + 1 < 2 ^ 32 := by unfold lMax at hlt; omega
    simp only [ResponseOk, BitVec.toNat_ofNat, Nat.mod_eq_of_lt hk32]
    omega

theorem responseOk_messageReply {cfg : Config} (hw : cfg.WellFormed) (h : Word) (ops : List Word) :
    ResponseOk cfg (messageReply cfg h ops) := by
  unfold messageReply
  cases hd : decodeMessage h ops with
  | ok i => exact responseOk_respondTo hw (wellFormed_of_decodeMessage hd)
  | error e => exact responseOk_err hd

/-! ### rx and the responses after a word -/

theorem operandsWith_length (rx : List Word) (w : Word) : (operandsWith rx w).length = rx.length := by
  simpa using (congrArg List.length (header_operands rx w)).symm

theorem rxOk_rxAfter (rx : List Word) (w : Word) : RxOk (rxAfter rx w) := by
  unfold rxAfter
  split
  case isTrue h =>
    rw [header_operands]
    simpa [RxOk, operandsWith_length] using h
  case isFalse => trivial

theorem responseOk_repliesAfter {cfg : Config} (hw : cfg.WellFormed) (rx : List Word) (w : Word) :
    ∀ r ∈ repliesAfter cfg rx w, ResponseOk cfg r := by
  unfold repliesAfter
  split
  · simp
  · simpa using responseOk_messageReply hw _ _

/-! ### The invariant -/

/-- Settles O36, by the event that comes next. A word's responses have a legal shape and its rx is a proper beginning of a
message, or empty; a reset empties rx; every other event leaves configuration, rx and responses as they are. -/
theorem stepKeepsInvariant : Obligations.StepKeepsInvariant := by
  rintro s ⟨hw, hrx, hok⟩
  have hstep := step_of_wf hw
  match hin : s.inbox with
  | [] => exact ⟨s, by rw [hstep, hin], hw, hrx, hok⟩
  | .word w :: es =>
    exact ⟨_, step_word hw hin, hw, rxOk_rxAfter _ w,
      List.forall_mem_append.mpr ⟨hok, responseOk_repliesAfter hw s.rx w⟩⟩
  | .reset :: es => exact ⟨(s.withInbox es).resetPort, by rw [hstep, hin], hw, trivial, hok⟩
  | .setupTransport c :: es => exact ⟨(s.withInbox es).withTransportConfig c, by rw [hstep, hin], hw, hrx, hok⟩
  | .write buf :: es => exact ⟨(s.withInbox es).writeTransport buf, by rw [hstep, hin], hw, hrx, hok⟩

/-- Settles O37: rx is shorter than the message its header announces, which has at most 1 + L_MAX words. -/
theorem rxHoldsAtMostLMaxWords : Obligations.RxHoldsAtMostLMaxWords := by
  intro s hs
  have hrx := hs.rx_ok
  change s.rx.length ≤ lMax
  cases h : s.rx with
  | nil => exact Nat.zero_le _
  | cons hd ops =>
    rw [h] at hrx
    exact Nat.le_of_lt_succ (hrx.trans_le (msgLen_le hd))

end Machine

end Sys2Proof
end

section
/-! SUPPORT. Proofs about configurations (10_state.md R10 to R13). -/

namespace Sys2Proof

/-! ### The two configuration words -/

theorem Config.word0_ofWords (cfg0 cfg1 : Word) : (Config.ofWords cfg0 cfg1).word0 = cfg0 := by
  have := cfg0.isLt
  apply BitVec.eq_of_toNat_eq
  simp only [Config.word0, Config.ofWords, byteField, field, BitVec.toNat_ofNat]
  omega

theorem Config.word1_ofWords (cfg0 cfg1 : Word) : (Config.ofWords cfg0 cfg1).word1 = cfg1 := by
  have := cfg1.isLt
  apply BitVec.eq_of_toNat_eq
  simp only [Config.word1, Config.ofWords, field, BitVec.toNat_ofNat]
  omega

/-- N and PAD_LEN fit their fields under WF1 and WF6; every other part of the record has its field's width already. -/
theorem Config.ofWords_words {cfg : Config} (hn : cfg.n < 2 ^ 4) (hpad : cfg.padLen < 2 ^ 16) :
    Config.ofWords cfg.word0 cfg.word1 = cfg := by
  obtain ⟨n, pat0, pat1, order, padLen, bit7, high0, high1⟩ := cfg
  have := pat0.isLt; have := pat1.isLt; have := order.isLt; have := bit7.isLt; have := high0.isLt; have := high1.isLt
  simp only [Config.ofWords, Config.word0, Config.word1, byteField, field, BitVec.toNat_ofNat, Config.mk.injEq] at *
  refine ⟨by omega, ?_, ?_, ?_, by omega, ?_, ?_, ?_⟩ <;>
    (apply BitVec.eq_of_toNat_eq; simp only [BitVec.toNat_ofNat]; omega)

/-- Settles O24: the fields of each word are read and laid out side by side, so nothing is lost either way. -/
theorem configWordsHoldRecord : Obligations.ConfigWordsHoldRecord := by
  refine ⟨fun cfg0 cfg1 => ⟨Config.word0_ofWords cfg0 cfg1, Config.word1_ofWords cfg0 cfg1⟩, fun cfg hw => ?_⟩
  obtain ⟨⟨-, hn⟩, -, -, -, -, hpad⟩ := Config.wellFormed_iff.mp hw
  exact Config.ofWords_words (by omega) (by omega)

/-! ### The first failed check -/

/-- All checks before the first failed one are met (95_test_vectors.md V-CF2, log 12). -/
theorem Config.meets_before_firstFailed {cfg : Config} {c : ConfigCheck} (h : cfg.firstFailed = some c) :
    ∀ d ∈ configChecks.takeWhile (· ≠ c), cfg.meets d = true := by
  obtain ⟨hc, before, after, hsplit, hmet⟩ := List.find?_eq_some_iff_append.mp h
  have hne : ∀ d ∈ before, decide (d ≠ c) = true := by
    intro d hd
    have hdm := hmet d hd
    simp only [decide_eq_true_eq]
    rintro rfl
    simp [hc] at hdm
  rw [hsplit, List.takeWhile_append_of_pos hne]
  simpa using hmet

/-- Settles O25: each vector's configuration is read from its words and checked. -/
theorem vectorConfigsRefusedByName : Obligations.VectorConfigsRefusedByName := by
  unfold Obligations.VectorConfigsRefusedByName
  constructor <;> decide

namespace Machine

theorem exec_of_failed {s : State} {c : ConfigCheck} (h : s.cfg.firstFailed = some c) (i : Instr) :
    exec i s = .refused (.illFormedConfig c) := by
  rw [exec_eq_respond, State.respond, State.ifMade_of_failed h]

/-- Settles O21: `ifMade` refuses before a step or a command does anything. -/
theorem illFormedConfigIsRefused : Obligations.IllFormedConfigIsRefused := by
  intro s hw
  obtain ⟨c, hc⟩ := Config.exists_firstFailed hw
  exact ⟨c, hc, Config.meets_of_firstFailed hc, State.ifMade_of_failed hc, exec_of_failed hc⟩

/-! ### Making a machine -/

theorem makeInstance_eq (cfg0 cfg1 : Word) : makeInstance cfg0 cfg1 =
    (launch (Config.ofWords cfg0 cfg1) []).ifMade (.next (launch (Config.ofWords cfg0 cfg1) [])) := rfl

/-- All that making a machine can do. -/
theorem makeInstance_next {cfg0 cfg1 : Word} {s : State} : makeInstance cfg0 cfg1 = .next s ↔
    (Config.ofWords cfg0 cfg1).WellFormed ∧ s = launch (Config.ofWords cfg0 cfg1) [] := by
  rw [makeInstance_eq, State.ifMade_next, Host.Outcome.next.injEq, eq_comm (b := s)]
  rfl

/-- Settles O23: a machine is made at its launch state, or refused by the first failed check. -/
theorem machineMadeIffWellFormed : Obligations.MachineMadeIffWellFormed := by
  intro cfg0 cfg1
  refine ⟨⟨?_, ?_⟩, ?_, ?_⟩
  · rintro ⟨s, hs⟩
    exact (makeInstance_next.mp hs).1
  · exact fun hw => ⟨_, makeInstance_next.mpr ⟨hw, rfl⟩⟩
  · intro s hs
    obtain ⟨hw, rfl⟩ := makeInstance_next.mp hs
    exact ⟨⟨hw, rfl⟩, rfl, rfl⟩
  · intro hw
    obtain ⟨c, hc⟩ := Config.exists_firstFailed hw
    exact ⟨c, State.ifMade_of_failed hc, Config.meets_of_firstFailed hc, Config.meets_before_firstFailed hc⟩

end Machine

end Sys2Proof
end

section
/-! SUPPORT. Proofs about command words over a byte-wide link (20_memory.md R38). -/

namespace Sys2Proof

theorem wordOfBytes_wordBytes (w : Word) :
    wordOfBytes (byteField w 24) (byteField w 16) (byteField w 8) (byteField w 0) = w := by
  have := w.isLt
  apply BitVec.eq_of_toNat_eq
  simp only [wordOfBytes, byteField, field, BitVec.toNat_ofNat]
  omega

theorem wordsOfBytes_flatMap_wordBytes (ws : List Word) : wordsOfBytes (ws.flatMap wordBytes) = ws := by
  induction ws with
  | nil => rfl
  | cons w ws ih => simp [wordBytes, wordsOfBytes, wordOfBytes_wordBytes, ih]

theorem byteField_eq_extract (w : Word) (lo : Nat) : byteField w lo = w.extractLsb' lo 8 := by
  rw [byteField, field_eq_extract, show lo + 7 + 1 - lo = 8 by omega, BitVec.ofNat_toNat, BitVec.setWidth_eq]

/-- Settles O6: four bytes make their word again, so all words arrive, and the stream decodes as they do. -/
theorem linkBytesCarryWords : Obligations.LinkBytesCarryWords := fun ws =>
  ⟨wordsOfBytes_flatMap_wordBytes ws, congrArg decode (wordsOfBytes_flatMap_wordBytes ws),
    fun w => congrArg some (byteField_eq_extract w 24)⟩

end Sys2Proof
end

section
/-! SUPPORT. Proofs about the line and the transport beside the block (20_memory.md R35, R36, R44, R45). -/

namespace Sys2Proof.Machine

theorem lineOf_append (a b : Buffer) : lineOf (a ++ b) = lineOf a ++ lineOf b := by simp [lineOf]

theorem lineOf_zeros (k : Nat) : lineOf (zeros k) = List.replicate (8 * k) .low := by simp [lineOf, levelOf]

/-- The padding stands behind the unpadded frame (43_frame.md R72). -/
theorem encChain_eq_append_pad (cfg : Config) (p : Bool) (px : List Pixel) :
    encChain cfg p px = encChain cfg false px ++ pad cfg p := by simp [encChain]

/-- Settles O49: the padding is a buffer of zero bytes behind the frame, and zero bytes are low units. -/
theorem paddingHoldsLineLow : Obligations.PaddingHoldsLineLow := by
  intro cfg px
  rw [encChain_eq_append_pad, lineOf_append, pad_true, lineOf_zeros]

theorem writeAnswer_of_too_long {buf : Buffer} (h : buf.length > Config.transportMaxBytes) (draw : Nat) :
    writeAnswer draw buf = .transportError := if_pos h

theorem writeAnswer_of_fits {buf : Buffer} (h : buf.length ≤ Config.transportMaxBytes) (draw : Nat) :
    writeAnswer draw buf = Config.transportAnswer draw := if_neg (Nat.not_lt.mpr h)

/-- Settles O52: the step is `writeTransport`, whose answer is `writeAnswer` of the draw counter. -/
theorem transportWriteLeavesBlock : Obligations.TransportWriteLeavesBlock := by
  intro s buf es hw hin
  refine ⟨writeAnswer s.transport.draws buf, ?_, (writeAnswer_of_too_long · _), (writeAnswer_of_fits · _)⟩
  rw [step_of_wf hw, hin]
  rfl

end Sys2Proof.Machine
end

section
/-! SUPPORT. Proofs about the responses to one step (20_memory.md R41). -/

namespace Sys2Proof.Machine

/-- A word brings about no response, or one, with which rx is empty. -/
theorem repliesAfter_cases (cfg : Config) (rx : List Word) (w : Word) :
    repliesAfter cfg rx w = [] ∨ (rxAfter rx w = [] ∧ ∃ r, repliesAfter cfg rx w = [r]) := by
  unfold repliesAfter rxAfter
  split
  · exact .inl rfl
  · exact .inr ⟨rfl, _, rfl⟩

/-- Settles O34, by the event that comes next: only a word can bring about a response. -/
theorem stepAddsAtMostOneResponse : Obligations.StepAddsAtMostOneResponse := by
  intro s t h
  have hw := wf_of_step h
  have hstep := step_of_wf hw
  rw [h] at hstep
  match hin : s.inbox with
  | [] => rw [hin] at hstep; cases hstep; exact ⟨hin, rfl, .inl rfl⟩
  | .word w :: es =>
    rw [step_word hw hin] at h
    cases h
    refine ⟨rfl, rfl, ?_⟩
    rcases repliesAfter_cases s.cfg s.rx w with hnone | ⟨hrx, r, hone⟩
    · exact .inl (by rw [hnone, List.append_nil])
    · exact .inr ⟨hrx, r, by rw [hone]⟩
  | .reset :: es => rw [hin] at hstep; cases hstep; exact ⟨rfl, rfl, .inl rfl⟩
  | .setupTransport c :: es => rw [hin] at hstep; cases hstep; exact ⟨rfl, rfl, .inl rfl⟩
  | .write buf :: es => rw [hin] at hstep; cases hstep; exact ⟨rfl, rfl, .inl rfl⟩

end Sys2Proof.Machine
end

section
/-! SUPPORT. Proofs about what encoded commands decode to (30_encoding.md R47, R48, R56). -/

namespace Sys2Proof

theorem byteField_ofNat {x lo : Nat} {b : Byte} (hx : x < 2 ^ 32) (h : x / 2 ^ lo % 2 ^ 8 = b.toNat) :
    byteField (BitVec.ofNat 32 x) lo = b := by
  rw [byteField, field_ofNat hx, show lo + 7 + 1 - lo = 8 by omega, h, BitVec.ofNat_toNat, BitVec.setWidth_eq]

/-- Of the words that follow the header, a message takes only its own (30_encoding.md R49). -/
theorem decodeMessage_take (h : Word) (ws : List Word) :
    decodeMessage h (ws.take (msgLen h - 1)) = decodeMessage h ws := by
  rcases opField_cases h with ho | ho | ho | ho | ho
  · simp only [decodeMessage_encBit ho]
  · simp only [decodeMessage_encChan ho]
  · simp only [decodeMessage_encPix ho]
  · have hpix : pixelWords h (ws.take (msgLen h - 1)) = pixelWords h ws := by
      simp [pixelWords, msgLen_chain ho, List.take_take]
    simp only [decodeMessage_encChain ho, hpix]
  · simp only [decodeMessage_badOp ho]

theorem decodeMessage_encChan_word (v : Byte) :
    decodeMessage (BitVec.ofNat 32 (0x20000000 + v.toNat)) [] = .ok (.encChan v) := by
  have := toNat_lt_256 v
  have hx : 0x20000000 + v.toNat < 2 ^ 32 := by omega
  rw [decodeMessage_encChan (by rw [opField, field_ofNat hx]; omega), if_pos (by rw [field_ofNat hx]; omega),
    byteField_ofNat hx (b := v) (by omega)]

theorem decodeMessage_encPix_word (r g b : Byte) :
    decodeMessage (BitVec.ofNat 32 (0x30000000 + r.toNat * 2 ^ 16 + g.toNat * 2 ^ 8 + b.toNat)) [] =
      .ok (.encPix r g b) := by
  have := toNat_lt_256 r; have := toNat_lt_256 g; have := toNat_lt_256 b
  have hx : 0x30000000 + r.toNat * 2 ^ 16 + g.toNat * 2 ^ 8 + b.toNat < 2 ^ 32 := by omega
  rw [decodeMessage_encPix (by rw [opField, field_ofNat hx]; omega), if_pos (by rw [field_ofNat hx]; omega),
    byteField_ofNat hx (b := r) (by omega), byteField_ofNat hx (b := g) (by omega),
    byteField_ofNat hx (b := b) (by omega)]

theorem decodeMessage_encChain_words (p : Bool) {px : List Pixel} (hl : px.length ≤ lMax) :
    decodeMessage (chainHeader p px.length) (px.map pixelWord) = .ok (.encChain p px) := by
  obtain ⟨hop, hrsvd, hlen, hpad⟩ := chainHeader_fields (p := p) hl
  have hpix : pixelWords (chainHeader p px.length) (px.map pixelWord) = px.map pixelWord :=
    List.take_of_length_le (by simp [hlen])
  rw [decodeMessage_encChain hop, if_pos hrsvd, hpix, firstBadPixel_pixelWords, hpad, map_pixelOfWord_pixelWord]

/-- The words of a command of the block decode to it. -/
theorem decodeMessage_of_encode {i : Instr} (hi : i.WellFormed) {h : Word} {ops : List Word}
    (he : encode i = h :: ops) : decodeMessage h ops = .ok (expand i) := by
  rw [encode_eq_encode_expand] at he
  cases i with
  | encBit b => cases he; cases b <;> decide
  | encChan v => cases he; exact decodeMessage_encChan_word v
  | encPix r g b => cases he; exact decodeMessage_encPix_word r g b
  | encChain p px => cases he; exact decodeMessage_encChain_words p hi
  | latch => cases he; exact decodeMessage_encChain_words true (px := []) hi
  | encEmpty => cases he; exact decodeMessage_encChain_words false (px := []) hi
  | encFrame px => cases he; exact decodeMessage_encChain_words true hi

theorem encode_eq_message {i : Instr} (hi : i.WellFormed) :
    ∃ h ops, encode i = h :: ops ∧ msgLen h = ops.length + 1 := by
  cases i with
  | encBit b => exact Laws.EncodedLength.encBit b hi
  | encChan v => exact Laws.EncodedLength.encChan v hi
  | encPix r g b => exact Laws.EncodedLength.encPix r g b hi
  | encChain p px => exact Laws.EncodedLength.encChain p px hi
  | latch => exact Laws.EncodedLength.latch hi
  | encEmpty => exact Laws.EncodedLength.encEmpty hi
  | encFrame px => exact Laws.EncodedLength.encFrame px hi

namespace Machine

/-- A pseudo-command and its expansion have one response (30_encoding.md R56). -/
theorem respondTo_expand (cfg : Config) (i : Instr) : respondTo cfg (expand i) = respondTo cfg i := by
  cases i <;> rfl

theorem messageReply_of_encode {i : Instr} (hi : i.WellFormed) {h : Word} {ops : List Word}
    (he : encode i = h :: ops) (cfg : Config) : messageReply cfg h ops = respondTo cfg i := by
  rw [messageReply, decodeMessage_of_encode hi he]
  exact respondTo_expand cfg i

end Machine

end Sys2Proof
end

section
/-! SUPPORT. Proofs about taking many words, one at a time (30_encoding.md R49, R50). -/

namespace Sys2Proof.Machine

/-- The responses that words bring about, and the rx they leave, taken one at a time. -/
def readWords (cfg : Config) : List Word → List Word → List Response × List Word
  | rx, [] => ([], rx)
  | rx, w :: ws =>
    let later := readWords cfg (rxAfter rx w) ws
    (repliesAfter cfg rx w ++ later.1, later.2)

/-- The state in which `s` has taken the words `ws` and the events `es` are still to come. -/
def State.afterWords (s : State) (ws : List Word) (es : List Event) : State :=
  { s with inbox := es, rx := (readWords s.cfg s.rx ws).2,
           responses := s.responses ++ (readWords s.cfg s.rx ws).1 }

/-! ### The run of words -/

/-- A run over words reads them one at a time. -/
theorem runSteps_words {s : State} {ws : List Word} {es : List Event} (hw : s.cfg.WellFormed)
    (hin : s.inbox = sends ws ++ es) : runSteps ws.length s = .next (s.afterWords ws es) := by
  induction ws generalizing s with
  | nil =>
    have hin : s.inbox = es := hin
    rw [State.afterWords, readWords, ← hin, List.append_nil]
    rfl
  | cons w ws ih =>
    refine runSteps_succ_next.mpr ⟨_, step_word (es := sends ws ++ es) hw hin, ?_⟩
    rw [ih (by exact hw) (by rfl)]
    simp [State.afterWords, readWords]

/-- The run of a fresh machine to which the host sends words. -/
theorem runSteps_launch_sends {cfg : Config} (hw : cfg.WellFormed) (ws : List Word) :
    runSteps ws.length (launch cfg (sends ws)) = .next ((launch cfg (sends ws)).afterWords ws []) :=
  runSteps_words (s := launch cfg (sends ws)) hw (List.append_nil _).symm

theorem runAll_launch_sends {cfg : Config} (hw : cfg.WellFormed) (ws : List Word) :
    runAll (launch cfg (sends ws)) = .next ((launch cfg (sends ws)).afterWords ws []) := by
  have hlen : (launch cfg (sends ws)).inbox.length = ws.length := List.length_map ..
  rw [runAll, hlen, runSteps_launch_sends hw]

theorem observation_afterWords_launch (cfg : Config) (ws : List Word) :
    observation ((launch cfg (sends ws)).afterWords ws []) = readWords cfg [] ws := rfl

/-! ### Words of one message -/

/-- Words that do not complete their message are held. -/
theorem readWords_held (cfg : Config) {rx ws : List Word} (hok : RxOk (rx ++ ws)) (rest : List Word) :
    readWords cfg rx (ws ++ rest) = readWords cfg (rx ++ ws) rest := by
  induction ws generalizing rx with
  | nil => simp
  | cons w ws ih =>
    rw [List.append_cons] at hok
    have hlt : rx.length + 1 < msgLen (headerWith rx w) := by
      rw [header_operands] at hok
      have hops : (operandsWith rx w ++ ws).length + 1 < msgLen (headerWith rx w) := hok
      rw [List.length_append, operandsWith_length] at hops
      omega
    rw [List.append_cons, ← ih hok, List.cons_append, readWords, rxAfter, if_pos hlt, repliesAfter, if_pos hlt]
    rfl

/-- The words of a whole message bring about its response and leave rx empty for the words after them. -/
theorem readWords_message (cfg : Config) {h : Word} {ops : List Word} (hlen : msgLen h = ops.length + 1)
    (rest : List Word) : readWords cfg [] (h :: ops ++ rest) =
      (messageReply cfg h ops :: (readWords cfg [] rest).1, (readWords cfg [] rest).2) := by
  obtain ⟨rx, w, hm⟩ : ∃ rx w, h :: ops = rx ++ [w] :=
    ⟨_, _, (List.dropLast_append_getLast (List.cons_ne_nil h ops)).symm⟩
  obtain ⟨rfl, rfl⟩ := List.cons.inj (hm.trans (header_operands rx w))
  rw [operandsWith_length] at hlen
  have hok : RxOk rx := by
    cases rx with
    | nil => trivial
    | cons h ops => exact (Nat.lt_succ_self _).trans_eq hlen.symm
  rw [hm, List.append_assoc, readWords_held cfg (rx := []) hok]
  simp [readWords, rxAfter, repliesAfter, hlen]

/-! ### Encoded commands -/

theorem readWords_encode (cfg : Config) {is : List Instr} (his : ∀ i ∈ is, i.WellFormed) :
    readWords cfg [] (is.flatMap encode) = (is.map (respondTo cfg), []) := by
  induction is with
  | nil => rfl
  | cons i is ih =>
    obtain ⟨hi, his⟩ := List.forall_mem_cons.mp his
    obtain ⟨h, ops, he, hlen⟩ := encode_eq_message hi
    rw [List.flatMap_cons, he, readWords_message cfg hlen, ih his, messageReply_of_encode hi he, List.map_cons]

/-- Settles O18: each command's words are a whole message, which is answered and leaves rx empty for the next. -/
theorem commandsAnsweredInOrder : Obligations.CommandsAnsweredInOrder := by
  intro cfg is hw his
  have hobs := (observation_afterWords_launch cfg (is.flatMap encode)).trans (readWords_encode cfg his)
  obtain ⟨hresponses, hrx⟩ := Prod.mk.inj hobs
  exact ⟨_, runAll_launch_sends hw _, hresponses, hrx, rfl⟩

/-! ### Word by word as message by message -/

/-- Reading a stream that begins with a whole message. -/
theorem replies_message (cfg : Config) (fuel : Nat) {h : Word} {ws : List Word}
    (hlen : ¬ ws.length + 1 < msgLen h) : replies cfg (fuel + 1) (h :: ws) =
      (messageReply cfg h (ws.take (msgLen h - 1)) :: (replies cfg fuel (ws.drop (msgLen h - 1))).1,
        (replies cfg fuel (ws.drop (msgLen h - 1))).2) := by
  have hdrop : (h :: ws).drop (msgLen h) = ws.drop (msgLen h - 1) := by
    rw [← Nat.sub_add_cancel (msgLen_pos h), List.drop_succ_cons, Nat.add_sub_cancel]
  rw [replies, decode, if_neg hlen, messageReply, decodeMessage_take]
  cases decodeMessage h ws with
  | ok i => rfl
  | error e => simp only [List.headD_cons, hdrop]

/-- Reading a stream that ends within its first message. -/
theorem replies_incomplete (cfg : Config) (fuel : Nat) {h : Word} {ws : List Word}
    (hlen : ws.length + 1 < msgLen h) : replies cfg (fuel + 1) (h :: ws) = ([], h :: ws) := by
  rw [replies, decode, if_pos hlen]

/-- Reading message by message gives what taking the words one at a time gives, if there is fuel for every word. -/
theorem replies_eq_readWords (cfg : Config) {fuel : Nat} {ws : List Word} (hfuel : ws.length ≤ fuel) :
    replies cfg fuel ws = readWords cfg [] ws := by
  induction fuel generalizing ws with
  | zero => rw [List.eq_nil_of_length_eq_zero (Nat.le_zero.mp hfuel)]; rfl
  | succ fuel ih =>
    cases ws with
    | nil => rfl
    | cons h ws =>
      rw [List.length_cons] at hfuel
      by_cases hlen : ws.length + 1 < msgLen h
      · have hheld := readWords_held cfg (rx := []) (ws := h :: ws) hlen []
        rw [List.append_nil] at hheld
        rw [replies_incomplete cfg fuel hlen, hheld]
        rfl
      · have hpos := msgLen_pos h
        have htake : msgLen h = (ws.take (msgLen h - 1)).length + 1 := by rw [List.length_take]; omega
        have hread := readWords_message cfg htake (ws.drop (msgLen h - 1))
        rw [List.cons_append, List.take_append_drop] at hread
        rw [replies_message cfg fuel hlen, hread, ih (by rw [List.length_drop]; omega)]

end Sys2Proof.Machine
end

section
/-! SUPPORT. Proofs about several machines side by side (20_memory.md R42, 60_exceptions.md R87). -/

namespace Sys2Proof.Machine

theorem systemStep_of_none {k : Nat} {ms : List State} (h : ms[k]? = none) : systemStep k ms = .next ms := by
  simp only [systemStep, h]

theorem systemStep_of_some {k : Nat} {ms : List State} {s t : State} (h : ms[k]? = some s) (hstep : step s = .next t) :
    systemStep k ms = .next (ms.set k t) := by
  simp only [systemStep, h, hstep]

theorem systemRun_cons {k : Nat} {ms ms' : List State} (h : systemStep k ms = .next ms') (schedule : List Nat) :
    systemRun (k :: schedule) ms = systemRun schedule ms' := by
  simp only [systemRun, h]

/-- Under every schedule each machine runs as it would alone, for as many steps as the schedule gives it. -/
theorem systemRun_eq_runs {schedule : List Nat} {ms ts : List State} (hlen : ms.length = ts.length)
    (hrun : ∀ k s t, ms[k]? = some s → ts[k]? = some t → runSteps (schedule.count k) s = .next t) :
    systemRun schedule ms = .next ts := by
  induction schedule generalizing ms with
  | nil =>
    refine congrArg _ (List.ext_getElem hlen fun k hm ht => ?_)
    exact Host.Outcome.next.inj
      (hrun k ms[k] ts[k] (List.getElem?_eq_getElem hm) (List.getElem?_eq_getElem ht))
  | cons k schedule ih =>
    by_cases hk : k < ms.length
    · have hms := List.getElem?_eq_getElem hk
      have hts := List.getElem?_eq_getElem (hlen ▸ hk : k < ts.length)
      have hrunk := hrun k _ _ hms hts
      rw [List.count_cons_self] at hrunk
      obtain ⟨u, hstep, hrest⟩ := runSteps_succ_next.mp hrunk
      rw [systemRun_cons (systemStep_of_some hms hstep)]
      refine ih (by rw [List.length_set, hlen]) fun j s t hs ht => ?_
      by_cases hj : k = j
      · subst hj
        rw [List.getElem?_set_self hk] at hs
        cases hs
        cases hts.symm.trans ht
        exact hrest
      · rw [List.getElem?_set_ne hj] at hs
        have hrunj := hrun j s t hs ht
        rwa [List.count_cons_of_ne hj] at hrunj
    · have hnone := List.getElem?_eq_none (Nat.le_of_not_lt hk)
      rw [systemRun_cons (systemStep_of_none hnone)]
      refine ih hlen fun j s t hs ht => ?_
      have hj : k ≠ j := by rintro rfl; rw [hnone] at hs; cases hs
      have hrunj := hrun j s t hs ht
      rwa [List.count_cons_of_ne hj] at hrunj

/-- Settles O54: each machine runs as it would alone, and alone it reads its words message by message. -/
theorem machinesDoNotInteract : Obligations.MachinesDoNotInteract := by
  intro jobs schedule hw hcount
  refine ⟨jobs.map fun j => (launch j.1 (sends j.2)).afterWords j.2 [], systemRun_eq_runs (by simp) ?_, ?_⟩
  · intro k s t hs ht
    rw [List.getElem?_map] at hs ht
    obtain ⟨j, hj, rfl⟩ := Option.map_eq_some_iff.mp hs
    rw [hj] at ht
    cases ht
    rw [hcount k j hj]
    exact runSteps_launch_sends (hw j (List.mem_of_getElem? hj)) j.2
  · rw [List.map_map]
    exact List.map_congr_left fun j _ =>
      (observation_afterWords_launch j.1 j.2).trans (replies_eq_readWords j.1 le_rfl).symm

end Sys2Proof.Machine
end

section
/-! SUPPORT. Proofs about streams of words and the command they begin with (30_encoding.md R46, R47, R48, R49, R52). -/

namespace Sys2Proof

/-! ### The first command of a stream -/

/-- A stream begins with a command exactly when it begins with a whole message that decodes to it. -/
theorem decode_eq_ok {ws : List Word} {i : Instr} {rest : List Word} : decode ws = .ok (i, rest) ↔
    ∃ h ops, ws = h :: ops ++ rest ∧ msgLen h = ops.length + 1 ∧ decodeMessage h ops = .ok i := by
  constructor
  · intro hd
    cases ws with
    | nil => cases hd
    | cons h ws =>
      have hpos := msgLen_pos h
      rw [decode] at hd
      split at hd
      case isTrue => cases hd
      case isFalse hlen =>
        cases hm : decodeMessage h ws with
        | error e => rw [hm] at hd; cases hd
        | ok j =>
          rw [hm] at hd
          cases hd
          refine ⟨h, ws.take (msgLen h - 1), ?_, ?_, (decodeMessage_take h ws).trans hm⟩
          · rw [List.cons_append, List.take_append_drop]
          · rw [List.length_take]; omega
  · rintro ⟨h, ops, rfl, hlen, hm⟩
    have hops : msgLen h - 1 = ops.length := by omega
    have hwhole : ¬ (ops ++ rest).length + 1 < msgLen h := by rw [List.length_append]; omega
    have hmsg : decodeMessage h (ops ++ rest) = .ok i := by
      rw [← decodeMessage_take, hops, List.take_left, hm]
    rw [List.cons_append, decode, if_neg hwhole, hmsg, hops, List.drop_left]

/-- Settles O1: a command's words are a whole message that decodes to its expansion. -/
theorem decodeInvertsEncode : Obligations.DecodeInvertsEncode := by
  intro i hi rest
  obtain ⟨h, ops, he, hlen⟩ := encode_eq_message hi
  exact decode_eq_ok.mpr ⟨h, ops, by rw [he], hlen, decodeMessage_of_encode hi he⟩

/-! ### Which messages are which command -/

/-- All the commands a whole message can stand for: OP picks the format, its reserved header bits are zero, and so are
the reserved bits of each pixel word (30_encoding.md R47, R48, R52). -/
theorem decodeMessage_eq_ok {h : Word} {ops : List Word} {i : Instr} : decodeMessage h ops = .ok i ↔
    ((opField h = 1 ∧ field h 27 1 = 0) ∧ i = .encBit (bitField h 0)) ∨
    ((opField h = 2 ∧ field h 27 8 = 0) ∧ i = .encChan (byteField h 0)) ∨
    ((opField h = 3 ∧ field h 27 24 = 0) ∧ i = .encPix (byteField h 16) (byteField h 8) (byteField h 0)) ∨
    (((opField h = 4 ∧ field h 26 24 = 0) ∧ ∀ w ∈ pixelWords h ops, field w 31 24 = 0) ∧
      i = .encChain (bitField h 27) ((pixelWords h ops).map pixelOfWord)) := by
  rcases opField_cases h with ho | ho | ho | ho | ho
  · by_cases hr : field h 27 1 = 0 <;> simp [decodeMessage_encBit ho, ho, hr, eq_comm (b := i)]
  · by_cases hr : field h 27 8 = 0 <;> simp [decodeMessage_encChan ho, ho, hr, eq_comm (b := i)]
  · by_cases hr : field h 27 24 = 0 <;> simp [decodeMessage_encPix ho, ho, hr, eq_comm (b := i)]
  · rw [decodeMessage_encChain ho, ← firstBadPixel_eq_none]
    by_cases hr : field h 26 24 = 0
    · cases firstBadPixel (pixelWords h ops) <;> simp [ho, hr, eq_comm (b := i)]
    · simp [ho, hr]
  · rw [decodeMessage_badOp ho]
    simp only [reduceCtorEq, false_iff]
    omega

theorem bitField_toNat (w : Word) (k : Nat) : (bitField w k).toNat = field w k k := by
  have hlt := field_lt w k k
  rw [Nat.add_sub_cancel_left] at hlt
  obtain h | h : field w k k = 0 ∨ field w k k = 1 := by omega
  all_goals simp [bitField, h]

theorem encode_encBit_bitField {h : Word} (ho : opField h = 1) (hr : field h 27 1 = 0) :
    encode (.encBit (bitField h 0)) = [h] := by
  have := h.isLt
  refine congrArg (List.cons · []) (BitVec.eq_of_toNat_eq ?_)
  simp only [bitField_toNat, opField, field, BitVec.toNat_ofNat] at *
  omega

theorem encode_encChan_byteField {h : Word} (ho : opField h = 2) (hr : field h 27 8 = 0) :
    encode (.encChan (byteField h 0)) = [h] := by
  have := h.isLt
  refine congrArg (List.cons · []) (BitVec.eq_of_toNat_eq ?_)
  simp only [byteField, opField, field, BitVec.toNat_ofNat] at *
  omega

theorem encode_encPix_byteField {h : Word} (ho : opField h = 3) (hr : field h 27 24 = 0) :
    encode (.encPix (byteField h 16) (byteField h 8) (byteField h 0)) = [h] := by
  have := h.isLt
  refine congrArg (List.cons · []) (BitVec.eq_of_toNat_eq ?_)
  simp only [byteField, opField, field, BitVec.toNat_ofNat] at *
  omega

theorem chainHeader_bitField_lenField {h : Word} (ho : opField h = 4) (hr : field h 26 24 = 0) :
    chainHeader (bitField h 27) (lenField h) = h := by
  have := h.isLt
  apply BitVec.eq_of_toNat_eq
  simp only [chainHeader, bitField_toNat, lenField, opField, field, BitVec.toNat_ofNat] at *
  omega

theorem map_pixelWord_pixelOfWord {ws : List Word} (hr : ∀ w ∈ ws, field w 31 24 = 0) :
    (ws.map pixelOfWord).map pixelWord = ws := by
  rw [List.map_map]
  exact (List.map_congr_left fun w hw => pixelWord_pixelOfWord (hr w hw)).trans (List.map_id ws)

/-- No bit of a message that decodes is dropped. -/
theorem encode_of_decodeMessage {h : Word} {ops : List Word} {i : Instr} (hlen : msgLen h = ops.length + 1)
    (hm : decodeMessage h ops = .ok i) : expand i = i ∧ encode i = h :: ops := by
  have hsingle (ho : opField h ≠ 4) : ops = [] := by
    rw [msgLen_single ho] at hlen
    exact List.eq_nil_of_length_eq_zero (by omega)
  rcases decodeMessage_eq_ok.mp hm with ⟨⟨ho, hr⟩, rfl⟩ | ⟨⟨ho, hr⟩, rfl⟩ | ⟨⟨ho, hr⟩, rfl⟩ | ⟨⟨⟨ho, hr⟩, hpix⟩, rfl⟩
  · rw [hsingle (by omega)]
    exact ⟨rfl, encode_encBit_bitField ho hr⟩
  · rw [hsingle (by omega)]
    exact ⟨rfl, encode_encChan_byteField ho hr⟩
  · rw [hsingle (by omega)]
    exact ⟨rfl, encode_encPix_byteField ho hr⟩
  · have hops : ops.length = lenField h := by rw [msgLen_chain ho] at hlen; omega
    have hall : pixelWords h ops = ops := List.take_of_length_le hops.le
    rw [hall] at hpix ⊢
    refine ⟨rfl, ?_⟩
    rw [encode, map_pixelWord_pixelOfWord hpix, List.length_map, hops, chainHeader_bitField_lenField ho hr]

/-- Settles O2: the stream begins with the words of the message that decodes, and these are the command's. -/
theorem encodeInvertsDecode : Obligations.EncodeInvertsDecode := by
  intro ws i rest hd
  obtain ⟨h, ops, rfl, hlen, hm⟩ := decode_eq_ok.mp hd
  obtain ⟨hcore, he⟩ := encode_of_decodeMessage hlen hm
  exact ⟨wellFormed_of_decodeMessage hm, hcore, by rw [he]⟩

/-- Settles O3: the words written out are those of the encoder. -/
theorem writtenOutWordsDecode : Obligations.WrittenOutWordsDecode :=
  ⟨decodeMessage_of_encode (i := .encBit true) (by decide) rfl,
    decodeMessage_of_encode (i := .encChan 0xA5) (by decide) rfl,
    decodeMessage_of_encode (i := .encPix 0x10 0x20 0x30) (by decide) rfl,
    decodeMessage_of_encode (i := .encChain true [⟨0xFF, 0x00, 0x80⟩]) (by decide) rfl,
    decodeMessage_of_encode (i := .encChain false []) (by decide) rfl⟩

/-! ### Masks and matches of the opcode table -/

/-- A word meets the mask and match of a field exactly when the field has the match's value. -/
theorem and_fieldMask_eq (w m v : Word) (hi lo k : Nat) (hm : m.toNat = (2 ^ (hi + 1 - lo) - 1) * 2 ^ lo)
    (hv : v.toNat = k * 2 ^ lo) : w &&& m = v ↔ field w hi lo = k := by
  rw [← BitVec.toNat_inj, toNat_and_fieldMask w m hi lo hm, hv, Nat.mul_left_inj (Nat.two_pow_pos lo).ne']

/-- A word meets a match under two masks together exactly when it does under each. -/
theorem and_or_eq_iff {w m n v : Word} (hv : v &&& (m ||| n) = v) :
    w &&& (m ||| n) = v ↔ w &&& m = v &&& m ∧ w &&& n = v &&& n := by
  constructor
  · rintro rfl
    constructor <;> (ext k; cases hm : m[k] <;> cases hn : n[k] <;> simp [hm, hn])
  · rintro ⟨hm, hn⟩
    rw [BitVec.and_or_distrib_left, hm, hn, ← BitVec.and_or_distrib_left, hv]

/-- A row of the opcode table: its mask covers OP and the reserved header bits `m`, its match is the OP code alone. -/
theorem and_rowMask_eq_iff (h mask m v : Word) (op hi lo : Nat) (hmask : mask = 0xF0000000#32 ||| m)
    (hm : m.toNat = (2 ^ (hi + 1 - lo) - 1) * 2 ^ lo) (hop : v &&& 0xF0000000#32 = v) (hv : v.toNat = op * 2 ^ 28)
    (hvm : v &&& m = 0#32) : h &&& mask = v ↔ opField h = op ∧ field h hi lo = 0 := by
  have hvmask : v &&& (0xF0000000#32 ||| m) = v := by rw [BitVec.and_or_distrib_left, hop, hvm, BitVec.or_zero]
  rw [hmask, and_or_eq_iff hvmask, hop, hvm, and_fieldMask_eq h _ v 31 28 op rfl hv, and_fieldMask_eq_zero h m hi lo hm]
  rfl

theorem lenField_eq_extract (h : Word) : lenField h = (h.extractLsb' 0 24).toNat := field_eq_extract h 23 0

/-- Settles O4, by `decodeMessage_eq_ok`: each row's mask and match say which OP it has and that its reserved bits are
zero. -/
theorem maskAndMatchSelectCommand : Obligations.MaskAndMatchSelectCommand := by
  intro h ops
  rw [and_rowMask_eq_iff h 0xFFFFFFFE#32 0x0FFFFFFE#32 0x10000000#32 1 27 1 rfl rfl rfl rfl rfl,
    and_rowMask_eq_iff h 0xFFFFFF00#32 0x0FFFFF00#32 0x20000000#32 2 27 8 rfl rfl rfl rfl rfl,
    and_rowMask_eq_iff h 0xFF000000#32 0x0F000000#32 0x30000000#32 3 27 24 rfl rfl rfl rfl rfl,
    and_rowMask_eq_iff h 0xF7000000#32 0x07000000#32 0x40000000#32 4 26 24 rfl rfl rfl rfl rfl, ← lenField_eq_extract]
  have hpixel (w : Word) : w &&& 0xFF000000#32 = 0#32 ↔ field w 31 24 = 0 := and_fieldMask_eq_zero w _ 31 24 rfl
  simp only [hpixel, decodeMessage_eq_ok]
  simp [pixelWords]

/-! ### OP and MsgLen -/

theorem opField_eq_toNat_iff (h : Word) (op : BitVec 4) : opField h = op.toNat ↔ h.extractLsb' 28 4 = op := by
  rw [opField, field_eq_extract h 31 28, BitVec.toNat_inj]

/-- Settles O5: the opcode's four bits pick the branch of `msgLen`. -/
theorem messageLengthFromHeader : Obligations.MessageLengthFromHeader := by
  intro h
  have hop : opField h = 4 ↔ h.extractLsb' 28 4 = 0x4#4 := opField_eq_toNat_iff h 0x4#4
  rw [← lenField_eq_extract, Ne, ← hop]
  exact ⟨msgLen_chain, msgLen_single⟩

end Sys2Proof
end

section
/-! SUPPORT. Proofs about the words of the port: which are held, and what a whole message is answered with
(30_encoding.md R50, R54, 60_exceptions.md R80 to R82). -/

namespace Sys2Proof.Machine

/-! ### Held words and whole messages -/

/-- A word that does not complete its message is held. -/
theorem step_held {s : State} {w h : Word} {ops : List Word} {es : List Event} (hw : s.cfg.WellFormed)
    (hin : s.inbox = .word w :: es) (hm : s.rx ++ [w] = h :: ops) (hlen : (h :: ops).length < msgLen h) :
    step s = .next { s with inbox := es, rx := s.rx ++ [w] } := by
  obtain ⟨rfl, rfl⟩ := List.cons.inj ((header_operands s.rx w).symm.trans hm)
  rw [List.length_cons, operandsWith_length] at hlen
  rw [step_word hw hin, rxAfter, if_pos hlen, repliesAfter, if_pos hlen, List.append_nil]

/-- A word that completes its message is answered, and leaves rx empty. -/
theorem step_message {s : State} {w h : Word} {ops : List Word} {es : List Event} (hw : s.cfg.WellFormed)
    (hin : s.inbox = .word w :: es) (hm : s.rx ++ [w] = h :: ops) (hlen : (h :: ops).length = msgLen h) :
    step s = .next { s with inbox := es, rx := [], responses := s.responses ++ [messageReply s.cfg h ops] } := by
  obtain ⟨rfl, rfl⟩ := List.cons.inj ((header_operands s.rx w).symm.trans hm)
  rw [List.length_cons, operandsWith_length] at hlen
  rw [step_word hw hin, rxAfter, if_neg hlen.not_lt, repliesAfter, if_neg hlen.not_lt]

theorem messageReply_of_ok {h : Word} {ops : List Word} {i : Instr} (hd : decodeMessage h ops = .ok i) (cfg : Config) :
    messageReply cfg h ops = respondTo cfg i := by
  rw [messageReply, hd]

theorem messageReply_of_error {h : Word} {ops : List Word} {e : CmdError} (hd : decodeMessage h ops = .error e)
    (cfg : Config) : messageReply cfg h ops = .err e.code e.info := by
  rw [messageReply, hd]

/-- Settles O9, by `step_held`. -/
theorem incompleteMessageIsHeld : Obligations.IncompleteMessageIsHeld := fun _ _ _ _ _ hw hin hm hlen =>
  step_held hw hin hm hlen

/-- Settles O8: the message that decodes is the whole of rx with the word, and both sides answer its command. -/
theorem stepRunsDecodedCommand : Obligations.StepRunsDecodedCommand := by
  intro s w es i hw hin hd
  obtain ⟨h, ops, hm, hlen, hi⟩ := decode_eq_ok.mp hd
  rw [List.append_nil] at hm
  rw [step_message hw hin hm hlen.symm, messageReply_of_ok hi, exec_of_wf (by exact hw)]
  rfl

/-! ### Errors in the header -/

/-- Settles O11: a reserved OP makes a message of one word, which is answered with E_BADOP. -/
theorem reservedOpGivesBadOp : Obligations.ReservedOpGivesBadOp := by
  rintro ⟨cfg, rx, inbox, responses, transport⟩ h es hw rfl hin hop
  have hbad : opField h = 0 ∨ 5 ≤ opField h :=
    hop.imp (opField_eq_toNat_iff h 0x0#4).mpr fun hge => by
      rw [opField, field_eq_extract]; exact hge
  have hlen : [h].length = msgLen h := (msgLen_single (by omega)).symm
  rw [step_message hw hin rfl hlen, messageReply_of_error (decodeMessage_badOp hbad [])]

/-- A legal OP with a nonzero bit under the mask of its format's reserved header bits (30_encoding.md R52). -/
theorem decodeMessage_of_reservedMask {h m : Word} {op : BitVec 4} (ho : h.extractLsb' 28 4 = op) (hne : h &&& m ≠ 0#32)
    (hlegal : 1 ≤ op.toNat ∧ op.toNat ≤ 4) (hi lo : Nat)
    (hbits : opField h = op.toNat → reservedHeaderBits h = field h hi lo)
    (hm : m.toNat = (2 ^ (hi + 1 - lo) - 1) * 2 ^ lo) (ops : List Word) :
    decodeMessage h ops = .error ⟨.rsvdHdr, h⟩ := by
  have hop := (opField_eq_toNat_iff h op).mpr ho
  refine decodeMessage_rsvdHdr (hop ▸ hlegal) ?_ ops
  rwa [hbits hop, Ne, ← and_fieldMask_eq_zero h m hi lo hm]

/-- Settles O12, by the header's OP: the mask that the statement gives for it covers its format's reserved bits. -/
theorem reservedHeaderBitGivesRsvdHdr : Obligations.ReservedHeaderBitGivesRsvdHdr := by
  intro s w h ops es hw hin hm hlen hmask
  have hd : decodeMessage h ops = .error ⟨.rsvdHdr, h⟩ := by
    rcases hmask with ⟨ho, hne⟩ | ⟨ho, hne⟩ | ⟨ho, hne⟩ | ⟨ho, hne⟩
    · exact decodeMessage_of_reservedMask ho hne (by decide) 27 1 (fun hop => by simp [reservedHeaderBits, hop]) rfl ops
    · exact decodeMessage_of_reservedMask ho hne (by decide) 27 8 (fun hop => by simp [reservedHeaderBits, hop]) rfl ops
    · exact decodeMessage_of_reservedMask ho hne (by decide) 27 24 (fun hop => by simp [reservedHeaderBits, hop]) rfl ops
    · exact decodeMessage_of_reservedMask ho hne (by decide) 26 24 (fun hop => by simp [reservedHeaderBits, hop]) rfl ops
  rw [step_message hw hin hm hlen, messageReply_of_error hd]

/-! ### Streams -/

/-- Settles O19: a run of words is `readWords`, and so is reading message by message. -/
theorem portRefinesMessageReading : Obligations.PortRefinesMessageReading := fun cfg ws hw =>
  ⟨_, runAll_launch_sends hw ws, (observation_afterWords_launch cfg ws).trans (replies_eq_readWords cfg le_rfl).symm⟩

end Sys2Proof.Machine
end

section
/-! SUPPORT. Proofs about responses: the bit group on a word interface (30_encoding.md R53) and the pseudo-commands (R56). -/

namespace Sys2Proof.Machine

/-! ### The bit group as a word -/

theorem strN_succ (n : Nat) (p : Byte) : strN (n + 1) p = p.getLsbD n :: strN n p := by
  simp [strN, List.range_succ_eq_map, Function.comp_def, Nat.sub_sub, Nat.add_comm 1]

/-- Reading a group as a number, highest bit first, gives the low bits of its pattern. -/
theorem foldl_strN (n : Nat) (p : Byte) (acc : Nat) :
    (strN n p).foldl (fun acc b => 2 * acc + b.toNat) acc = acc * 2 ^ n + p.toNat % 2 ^ n := by
  induction n generalizing acc with
  | zero => simp [strN, Nat.mod_one]
  | succ n ih =>
    rw [strN_succ, List.foldl_cons, ih, BitVec.getLsbD, Nat.toNat_testBit, Nat.mod_pow_succ, Nat.pow_succ]
    ring

theorem pattern_lt {cfg : Config} (hw : cfg.WellFormed) (b : Bool) : (pattern cfg b).toNat < 2 ^ cfg.n := by
  obtain ⟨-, ⟨hpat0, hpat1⟩, -⟩ := Config.wellFormed_iff.mp hw
  cases b
  · exact hpat0
  · exact hpat1

/-- Settles O40: the pattern fits in N bits (WF2), so its N bits are the whole of it. -/
theorem groupWordIsPattern : Obligations.GroupWordIsPattern := by
  intro cfg b hw
  rw [groupWord, encBit_eq, foldl_strN, Nat.zero_mul, Nat.zero_add, Nat.mod_eq_of_lt (pattern_lt hw b),
    BitVec.ofNat_toNat]
  rfl

/-! ### Pseudo-commands -/

/-- A pseudo-command and its expansion have one effect. -/
theorem exec_expand (i : Instr) (s : State) : exec (expand i) s = exec i s := by
  rw [exec_eq_respond, exec_eq_respond, respondTo_expand]

/-- Settles O31: each pseudo-command's response by `exec_of_wf`, its words and effect by those of its expansion. -/
theorem pseudoCommandsAnswerAsExpansions : Obligations.PseudoCommandsAnswerAsExpansions := fun s px hw =>
  ⟨exec_of_wf hw .latch, exec_of_wf hw .encEmpty, exec_of_wf hw (.encFrame px), rfl, rfl,
    encode_eq_encode_expand (.encFrame px), (exec_expand .latch s).symm, (exec_expand .encEmpty s).symm,
    (exec_expand (.encFrame px) s).symm⟩

end Sys2Proof.Machine
end

section
/-! SUPPORT. Proofs about the assembler (30_encoding.md R55, R56). -/

namespace Sys2Proof.Machine

/-! ### One line -/

/-- The line of a pixel. -/
def pxLine (x : Pixel) : AsmLine := .px x.r.toNat x.g.toNat x.b.toNat

theorem rgbWord_bytes (base : Nat) (r g b : Byte) : rgbWord base r.toNat g.toNat b.toNat =
    .ok (BitVec.ofNat 32 (base + r.toNat * 2 ^ 16 + g.toNat * 2 ^ 8 + b.toNat)) := by
  simp [rgbWord, inRange, toNat_lt_256]

theorem lineWord_pxLine (x : Pixel) (rest : List AsmLine) : lineWord (pxLine x) rest = .ok (pixelWord x) := by
  rw [pxLine, lineWord, rgbWord_bytes, Nat.zero_add, pixelWord]

theorem countPx_cons_px {l : AsmLine} (h : isPx l = true) (ls : List AsmLine) : countPx (l :: ls) = countPx ls + 1 := by
  simp [countPx, h]

theorem countPx_cons_command {l : AsmLine} (h : isPx l = false) (ls : List AsmLine) : countPx (l :: ls) = 0 := by
  simp [countPx, h]

/-- The word of a line that may stand where it does, before the words of the lines after it. -/
theorem assembleFrom_cons {l : AsmLine} {rest : List AsmLine} {w : Word} {ws : List Word} {inChain : Bool}
    (hpx : isPx l = true → inChain = true) (hw : lineWord l rest = .ok w)
    (hrest : assembleFrom (opensChain l) rest = .ok ws) : assembleFrom inChain (l :: rest) = .ok (w :: ws) := by
  have hplace : ¬ (isPx l && !inChain) = true := by
    cases h : isPx l
    · simp
    · simp [hpx h]
  rw [assembleFrom, if_neg hplace, hw, hrest]

/-! ### Commands -/

/-- The lines `ls` are a list of whole commands, of words `ws`: they may follow any line, and none of their px lines
belongs to a command before them. -/
structure Assembles (ls : List AsmLine) (ws : List Word) : Prop where
  words : ∀ inChain, assembleFrom inChain ls = .ok ws
  countPx_eq : countPx ls = 0

section
variable {rest : List AsmLine} {ws : List Word} (hrest : Assembles rest ws)
include hrest

theorem Assembles.single {l : AsmLine} {w : Word} (hpx : isPx l = false) (hw : ∀ r, lineWord l r = .ok w) :
    Assembles (l :: rest) (w :: ws) where
  words _ := assembleFrom_cons (by simp [hpx]) (hw rest) (hrest.words _)
  countPx_eq := countPx_cons_command hpx _

theorem Assembles.pxLines (px : List Pixel) :
    assembleFrom true (px.map pxLine ++ rest) = .ok (px.map pixelWord ++ ws) := by
  induction px with
  | nil => exact hrest.words true
  | cons x px ih => exact assembleFrom_cons (fun _ => rfl) (lineWord_pxLine x _) ih

theorem Assembles.countPx_pxLines (px : List Pixel) : countPx (px.map pxLine ++ rest) = px.length := by
  induction px with
  | nil => exact hrest.countPx_eq
  | cons x px ih => exact (countPx_cons_px rfl _).trans (congrArg (· + 1) ih)

/-- A chain's line counts the px lines after it, which are its pixels. -/
theorem Assembles.chain {l : AsmLine} {base : Nat} {px : List Pixel} (hl : px.length ≤ lMax) (hpx : isPx l = false)
    (hopens : opensChain l = true) (hw : ∀ r, lineWord l r = chainWord base r) :
    Assembles (l :: px.map pxLine ++ rest) (BitVec.ofNat 32 (base + px.length) :: px.map pixelWord ++ ws) where
  words _ := by
    have hword : lineWord l (px.map pxLine ++ rest) = .ok (BitVec.ofNat 32 (base + px.length)) := by
      rw [hw, chainWord, hrest.countPx_pxLines, if_pos hl]
    exact assembleFrom_cons (by simp [hpx]) hword (hopens ▸ hrest.pxLines px)
  countPx_eq := countPx_cons_command hpx _

/-- A command's lines have the encoder's words. -/
theorem Assembles.command {i : Instr} (hi : i.WellFormed) : Assembles (linesOf i ++ rest) (encode i ++ ws) := by
  cases i with
  | encBit b => exact hrest.single rfl fun _ => by cases b <;> rfl
  | encChan v => exact hrest.single rfl fun _ => by simp [lineWord, inRange, Nat.le_of_lt_succ (toNat_lt_256 v)]
  | encPix r g b => exact hrest.single rfl fun _ => rgbWord_bytes _ r g b
  | encChain p px =>
    cases p
    · exact hrest.chain hi rfl rfl fun _ => rfl
    · exact hrest.chain hi rfl rfl fun _ => rfl
  | latch => exact hrest.single rfl fun _ => rfl
  | encEmpty => exact hrest.single rfl fun _ => rfl
  | encFrame px => exact hrest.chain hi rfl rfl fun _ => rfl

end

theorem assembles_commands {is : List Instr} (his : ∀ i ∈ is, i.WellFormed) :
    Assembles (is.flatMap linesOf) (is.flatMap encode) := by
  induction is with
  | nil => exact ⟨fun _ => rfl, rfl⟩
  | cons i is ih =>
    obtain ⟨hi, his⟩ := List.forall_mem_cons.mp his
    rw [List.flatMap_cons, List.flatMap_cons]
    exact (ih his).command hi

/-- Settles O7: no command's px lines are counted with those of the command before it, so each has its own words. -/
theorem assemblerEncodesCommands : Obligations.AssemblerEncodesCommands := fun _ his =>
  (assembles_commands his).words false

end Sys2Proof.Machine
end

section
/-! SUPPORT. Proofs about the bit group of a logical bit and ENC_BIT (40_bit_timing.md R57 to R59). -/

namespace Sys2Proof.Machine

/-! ### High units of a group -/

theorem ones_strN (n : Nat) (p : Byte) : ones (strN n p) = (List.range n).countP p.getLsbD := by
  induction n with
  | zero => rfl
  | succ n ih =>
    rw [strN_succ, List.range_succ, List.countP_append, List.countP_singleton, ← ih]
    simp [ones, List.count_cons]

/-- A pattern below 2^n has no 1 bit from bit n on. -/
theorem popcount_of_lt {n : Nat} {p : Byte} (hn : n ≤ 8) (hp : p.toNat < 2 ^ n) :
    popcount p = (List.range n).countP p.getLsbD := by
  have hhigh (k : Nat) : p.getLsbD (n + k) = false :=
    Nat.testBit_lt_two_pow (hp.trans_le (Nat.pow_le_pow_right Nat.two_pos (Nat.le_add_right n k)))
  obtain ⟨m, hm⟩ := Nat.exists_eq_add_of_le hn
  have hrange : List.range 8 = List.range n ++ (List.range m).map (n + ·) := by rw [hm, List.range_add]
  rw [popcount, hrange, List.countP_append, List.countP_map]
  simp [Function.comp_def, hhigh]

/-- By WF1 and WF2, a group has as many high units as its whole pattern has 1 bits. -/
theorem ones_encBit {cfg : Config} (hw : cfg.WellFormed) (b : Bool) : ones (encBit cfg b) = popcount (pattern cfg b) := by
  obtain ⟨⟨-, hn⟩, -⟩ := Config.wellFormed_iff.mp hw
  rw [encBit_eq, ones_strN, popcount_of_lt hn (pattern_lt hw b)]

/-- Settles O39: by `ones_encBit`, WF3 compares the high units of the two groups, which therefore differ. -/
theorem groupLaws : Obligations.GroupLaws := by
  intro cfg hw
  obtain ⟨⟨hn, -⟩, -, hpop, -⟩ := Config.wellFormed_iff.mp hw
  have hones : ones (encBit cfg false) < ones (encBit cfg true) := by
    rw [ones_encBit hw, ones_encBit hw]; exact hpop
  have hne : encBit cfg false ≠ encBit cfg true := fun h => hones.ne (congrArg ones h)
  have hfraction : (popcount cfg.pat0 : ℚ) / cfg.n < (popcount cfg.pat1 : ℚ) / cfg.n :=
    div_lt_div_of_pos_right (Nat.cast_lt.mpr hpop) (Nat.cast_pos.mpr hn)
  exact ⟨encBit_length cfg false, encBit_length cfg true, hne, hones, hfraction⟩

/-! ### ENC_BIT -/

theorem encBit_getElem? (cfg : Config) (b : Bool) {k : Nat} (hk : k < cfg.n) :
    (encBit cfg b)[k]? = some ((pattern cfg b).getLsbD (cfg.n - 1 - k)) := by
  rw [encBit_eq, strN_getElem? _ hk]

/-- Settles O27: the response by `exec_of_wf`, its bits by `encBit_getElem?`. -/
theorem encBitAnswersPattern : Obligations.EncBitAnswersPattern := fun s b hw =>
  ⟨encBit s.cfg b, exec_of_wf hw (.encBit b), encBit_length s.cfg b, fun _ hk => encBit_getElem? s.cfg b hk⟩

end Sys2Proof.Machine
end

section
/-! SUPPORT. Proofs about the channel encoder, ENC_CHAN and the observer decoder (41_channel.md R60 to R67). -/

namespace Sys2Proof.Machine

/-! ### Decoding a channel group by group -/

/-- In a string made of pieces of `n` bits, group `j` is piece `j`. -/
theorem groupAt_flatMap {α : Type} {f : α → BitString} {n : Nat} (hf : ∀ a, (f a).length = n) {l : List α} {j : Nat}
    {a : α} (h : l[j]? = some a) : groupAt n (l.flatMap f) j = f a := by
  induction l generalizing j with
  | nil => simp at h
  | cons x l ih =>
    cases j with
    | zero =>
      obtain rfl : x = a := by simpa using h
      simp [groupAt, hf]
    | succ j =>
      rw [← ih (by simpa using h), groupAt, groupAt, List.flatMap_cons, Nat.succ_mul, Nat.add_comm, ← hf x,
        List.drop_length_add_append]

/-- Group `j` of an encoded channel is that of channel bit `7 - j` (R60, R61). -/
theorem groupAt_encChan (cfg : Config) (v : Byte) {j : Nat} (hj : j < 8) :
    groupAt cfg.n (bits (encChan cfg v)) j = encBit cfg (v.getLsbD (7 - j)) := by
  rw [bits_encChan, encChanBits_eq]
  exact groupAt_flatMap (fun _ => encBit_length cfg _) (List.getElem?_range hj)

/-- A decoded channel is the number of its eight decoded bits, channel bit 7 first. -/
theorem decChanBy_encChan (dec : BitString → Bool) (cfg : Config) (v : Byte) :
    decChanBy dec cfg.n (encChan cfg v) =
      ((List.range 8).map fun j => (dec (encBit cfg (v.getLsbD (7 - j)))).toNat * 2 ^ (7 - j)).sum := by
  refine congrArg List.sum (List.map_congr_left fun j hj => ?_)
  rw [groupAt_encChan cfg v (List.mem_range.mp hj)]

theorem sum_getLsbD (v : Byte) :
    ((List.range 8).map fun j => (v.getLsbD (7 - j)).toNat * 2 ^ (7 - j)).sum = v.toNat := by
  conv_rhs => rw [← byteOfBits_getLsbD v, byteOfBits_toNat]
  simp [List.range, List.range.loop, Nat.add_assoc]

/-- A group decoder recovers every channel value exactly when it recovers both logical bits. All eight bits of 0x00 are 0
and all of 0xFF are 1, so these two values show it. -/
theorem decChanBy_encChan_iff (dec : BitString → Bool) (cfg : Config) :
    (∀ v, decChanBy dec cfg.n (encChan cfg v) = v.toNat) ↔ ∀ b, dec (encBit cfg b) = b := by
  constructor
  · intro h b
    by_contra hne
    have hd : dec (encBit cfg b) = !b := Bool.eq_not.mpr hne
    cases b with
    | false => simpa [decChanBy_encChan, hd, List.range, List.range.loop] using h 0x00#8
    | true => simpa [decChanBy_encChan, hd, List.range, List.range.loop] using h 0xFF#8
  · intro h v
    simp only [decChanBy_encChan, h, sum_getLsbD]

/-! ### Threshold decode -/

/-- A legal threshold lies above the high units of the group of 0 and not above those of the group of 1. -/
theorem decGroup_encBit {cfg : Config} {t : Nat} (hw : cfg.WellFormed) (ht : ThresholdOk cfg t) (b : Bool) :
    decGroup t (encBit cfg b) = b := by
  obtain ⟨h0, h1⟩ := ht
  rw [decGroup, ones_encBit hw]
  cases b with
  | false => exact decide_eq_false (Nat.not_le.mpr h0)
  | true => exact decide_eq_true h1

theorem thresholdOk_threshold {cfg : Config} (hw : cfg.WellFormed) : ThresholdOk cfg (threshold cfg) := by
  obtain ⟨-, -, hpop, -⟩ := Config.wellFormed_iff.mp hw
  exact ⟨hpop, Nat.le_refl _⟩

/-- Settles O43: a legal threshold recovers both logical bits, so every channel value, by `decChanBy_encChan_iff`. -/
theorem thresholdRoundTrip : Obligations.ThresholdRoundTrip := fun cfg t v hw ht =>
  (decChanBy_encChan_iff (decGroup t) cfg).mpr (decGroup_encBit hw ht) v

/-- Settles O42: the canonical threshold by WF3, every threshold by `decGroup_encBit`. -/
theorem thresholdTellsGroupsApart : Obligations.ThresholdTellsGroupsApart := fun _ hw =>
  ⟨thresholdOk_threshold hw, fun _ ht => ⟨decGroup_encBit hw ht false, decGroup_encBit hw ht true⟩⟩

/-- Settles O41: the length by `encChan_length` and WF1; threshold decode is a left inverse, so no two values share an
encoding. -/
theorem channelLengthAndInjectivity : Obligations.ChannelLengthAndInjectivity := by
  intro cfg hw
  obtain ⟨⟨-, hn⟩, -⟩ := Config.wellFormed_iff.mp hw
  refine ⟨fun v => ⟨encChan_length cfg v, hn⟩, fun v w h => BitVec.eq_of_toNat_eq ?_⟩
  have roundTrip (v : Byte) := thresholdRoundTrip cfg (threshold cfg) v hw (thresholdOk_threshold hw)
  rw [← roundTrip v, h, roundTrip w]

/-! ### Majority vote -/

theorem decGroupMaj_encBit_iff {cfg : Config} (hw : cfg.WellFormed) :
    (∀ b, decGroupMaj cfg.n (encBit cfg b) = b) ↔ 2 * popcount cfg.pat0 ≤ cfg.n ∧ cfg.n < 2 * popcount cfg.pat1 := by
  rw [Bool.forall_bool]
  simp [decGroupMaj, ones_encBit hw, pattern]

/-- R67 with its condition: majority vote recovers every value exactly when it recovers both logical bits. -/
theorem decChanMaj_encChan_iff {cfg : Config} (hw : cfg.WellFormed) :
    (∀ v, decChanMaj cfg (encChan cfg v) = v.toNat) ↔
      2 * popcount cfg.pat0 ≤ cfg.n ∧ cfg.n < 2 * popcount cfg.pat1 :=
  (decChanBy_encChan_iff (decGroupMaj cfg.n) cfg).trans (decGroupMaj_encBit_iff hw)

/-- Settles O44: the condition by `decChanMaj_encChan_iff`; the fixture's popcounts 1 and 2 meet it for N = 3. In the
last configuration 1 is sent as 11110000, whose four high units of eight are no majority. -/
theorem majorityRoundTripCondition : Obligations.MajorityRoundTripCondition :=
  ⟨fun _ hw => decChanMaj_encChan_iff hw,
    (decChanMaj_encChan_iff (Config.firstFailed_eq_none.mp (by decide))).mpr (by decide), by decide⟩

/-! ### The closed form and ENC_CHAN -/

/-- The number that a bit string writes, its first-sent bit highest: the one that `groupWord` makes a word of. -/
def bitsNumber (s : BitString) : Nat := s.foldl (fun acc b => 2 * acc + b.toNat) 0

/-- A prefix read before the string, as the number `acc`, counts above all its bits. -/
theorem foldl_eq_bitsNumber (s : BitString) (acc : Nat) :
    s.foldl (fun acc b => 2 * acc + b.toNat) acc = acc * 2 ^ s.length + bitsNumber s := by
  induction s generalizing acc with
  | nil => simp [bitsNumber]
  | cons b s ih =>
    rw [bitsNumber, List.foldl_cons, List.foldl_cons, ih, ih (2 * 0 + b.toNat), List.length_cons, Nat.pow_succ]
    ring

theorem bitsNumber_append (s t : BitString) : bitsNumber (s ++ t) = bitsNumber s * 2 ^ t.length + bitsNumber t := by
  rw [bitsNumber, List.foldl_append]; exact foldl_eq_bitsNumber t (bitsNumber s)

theorem bitsNumber_lt (s : BitString) : bitsNumber s < 2 ^ s.length := by
  induction s with
  | nil => simp [bitsNumber]
  | cons b s ih =>
    have hb := Nat.mul_le_mul_right (2 ^ s.length) b.toNat_le
    rw [bitsNumber, List.foldl_cons, foldl_eq_bitsNumber, Nat.mul_zero, Nat.zero_add, List.length_cons, Nat.pow_succ]
    omega

theorem bitsNumber_strN (n : Nat) (p : Byte) : bitsNumber (strN n p) = p.toNat % 2 ^ n := by
  rw [bitsNumber, foldl_strN, Nat.zero_mul, Nat.zero_add]

/-- A group writes its whole pattern, which fits in N bits (WF2). -/
theorem bitsNumber_encBit {cfg : Config} (hw : cfg.WellFormed) (b : Bool) :
    bitsNumber (encBit cfg b) = (pattern cfg b).toNat := by
  rw [encBit_eq, bitsNumber_strN, Nat.mod_eq_of_lt (pattern_lt hw b)]

/-- A channel's physical bits write the sum S of R62: each group weighs 2^N times the one sent after it. -/
theorem bitsNumber_encChanBits {cfg : Config} (hw : cfg.WellFormed) (v : Byte) :
    bitsNumber (encChanBits cfg v) = chanNumber cfg v := by
  simp only [encChanBits, bitsNumber_append, bitsNumber_encBit hw, encBit_length, chanNumber, pow_mul, List.range,
    List.range.loop, List.map_cons, List.map_nil, List.sum_cons, List.sum_nil]
  ring

/-- Byte `k` of a buffer, most significant byte first, in the number that its bits write. -/
theorem getElem?_eq_bitsNumber {buf : Buffer} {k : Nat} (hk : k < buf.length) :
    buf[k]? = some (BitVec.ofNat 8 (bitsNumber (bits buf) / 2 ^ (8 * (buf.length - 1 - k)))) := by
  have hsplit : bits buf = bits (buf.take k) ++ strN 8 buf[k] ++ bits (buf.drop (k + 1)) := by
    conv_lhs => rw [← List.take_append_drop k buf, List.drop_eq_getElem_cons hk]
    rw [bits_append, bits_cons, List.append_assoc]
  have hlater : (bits (buf.drop (k + 1))).length = 8 * (buf.length - 1 - k) := by
    rw [bits_length, List.length_drop]; omega
  have hquotient : bitsNumber (bits buf) / 2 ^ (8 * (buf.length - 1 - k)) =
      bitsNumber (bits (buf.take k)) * 2 ^ 8 + buf[k].toNat := by
    rw [hsplit, bitsNumber_append, bitsNumber_append, bitsNumber_strN, strN_length, Nat.mod_eq_of_lt buf[k].isLt,
      ← hlater, Nat.add_comm, Nat.add_mul_div_right _ _ (Nat.two_pow_pos _), Nat.div_eq_of_lt (bitsNumber_lt _),
      Nat.zero_add]
  rw [hquotient, List.getElem?_eq_getElem hk]
  refine congrArg some (BitVec.eq_of_toNat_eq ?_)
  rw [BitVec.toNat_ofNat, Nat.mul_add_mod', Nat.mod_eq_of_lt buf[k].isLt]

/-- Settles O28: the response by `exec_of_wf`; its bits write S, and its bytes are the bytes of S. -/
theorem encChanAnswersClosedForm : Obligations.EncChanAnswersClosedForm := by
  intro s v hw
  refine ⟨encChan s.cfg v, exec_of_wf hw (.encChan v), encChan_length s.cfg v, fun k hk => ?_⟩
  rw [getElem?_eq_bitsNumber (by rwa [encChan_length]), bits_encChan, bitsNumber_encChanBits hw, encChan_length]
  rfl

end Sys2Proof.Machine
end

section
/-! SUPPORT. Proofs about the pixel encoder and ENC_PIX (42_pixel.md R68 to R71). -/

namespace Sys2Proof.Machine

/-! ### The channels of a pixel on the wire -/

/-- A legal order leaves no channel out (10_state.md R11). -/
theorem mem_seq {cfg : Config} (hw : cfg.WellFormed) (c : Channel) : c ∈ seq cfg.order := by
  obtain ⟨-, -, -, horder, -⟩ := Config.wellFormed_iff.mp hw
  have h := seq_cases horder
  simp only [List.mem_cons, List.not_mem_nil, or_false] at h
  rcases h with h | h | h | h | h | h <;> rw [h] <;> cases c <;> decide

/-- The bytes of a pixel whose three channels are sent in a known order (R69). -/
theorem encPix_of_seq {cfg : Config} {x y z : Channel} (h : seq cfg.order = [x, y, z]) (p : Pixel) :
    encPix cfg p = encChan cfg (sel p x) ++ encChan cfg (sel p y) ++ encChan cfg (sel p z) := by
  simp [encPix, wire, h]

/-- Settles O29: three channels are sent, by `seq_length`, and each order code names them. -/
theorem encPixAnswersWireOrder : Obligations.EncPixAnswersWireOrder := by
  intro s r g b hw
  obtain ⟨x, y, z, hseq⟩ := List.length_eq_three.mp (seq_length hw)
  have hexec := exec_of_wf hw (.encPix r g b)
  rw [respondTo, encPix_of_seq hseq] at hexec
  refine ⟨_, _, _, hexec, ?_⟩
  refine ⟨?_, ?_, ?_, ?_, ?_, ?_⟩ <;> (intro ho; rw [ho] at hseq; cases hseq; rfl)

/-! ### Splitting a pixel into its channels -/

/-- In a concatenation of pieces of `n` elements, the segment from `n * k` on is piece `k`: the pieces before it are
`n * k` elements long. -/
theorem take_drop_flatMap {α β : Type} {f : α → List β} {n : Nat} (hf : ∀ a, (f a).length = n) {l : List α} {k : Nat}
    {a : α} (h : l[k]? = some a) : ((l.flatMap f).drop (n * k)).take n = f a := by
  obtain ⟨hk, rfl⟩ := List.getElem?_eq_some_iff.mp h
  have hsplit : l.flatMap f = (l.take k).flatMap f ++ (f l[k] ++ (l.drop (k + 1)).flatMap f) := by
    rw [← List.flatMap_cons, ← List.flatMap_append, ← List.drop_eq_getElem_cons hk, List.take_append_drop]
  have hbefore : ((l.take k).flatMap f).length = n * k := by
    rw [flatMap_length f n _ fun a _ => hf a, List.length_take_of_le hk.le, Nat.mul_comm]
  rw [hsplit, List.drop_left' hbefore, List.take_left' (hf _)]

/-- The segment of a pixel at wire position `k` is the encoding of the channel sent there. -/
theorem encPix_segment (cfg : Config) (p : Pixel) {k : Nat} {c : Channel} (h : (seq cfg.order)[k]? = some c) :
    ((encPix cfg p).drop (cfg.n * k)).take cfg.n = encChan cfg (sel p c) :=
  take_drop_flatMap (encChan_length cfg) (by rw [wire, List.getElem?_map, h]; rfl)

/-- Settles O45: the bound by WF1, the channels by `seq_length` and `mem_seq`, the segments by `encPix_segment`. -/
theorem pixelSplitsIntoChannels : Obligations.PixelSplitsIntoChannels := by
  intro cfg p hw
  obtain ⟨⟨-, hn⟩, -⟩ := Config.wellFormed_iff.mp hw
  exact ⟨encPix_length hw p, Nat.mul_le_mul_left 3 hn, seq_length hw, mem_seq hw, fun _ _ h => encPix_segment cfg p h⟩

end Sys2Proof.Machine
end

section
/-! SUPPORT. Proofs about the frame builder and ENC_CHAIN (43_frame.md R72 to R78). -/

namespace Sys2Proof.Machine

/-! ### The first reserved pixel word -/

/-- R52's mask of the reserved byte of a pixel word. -/
theorem and_pixelMask_eq_zero (w : Word) : w &&& 0xFF000000#32 = 0#32 ↔ field w 31 24 = 0 :=
  and_fieldMask_eq_zero w _ 31 24 rfl

/-- The first bad pixel word, by the mask that R52 gives for its reserved byte. -/
theorem firstBadPixel_eq_some {ws : List Word} {k : Nat} {bad : Word} (hk : ws[k]? = some bad)
    (hbad : bad &&& 0xFF000000#32 ≠ 0#32) (hbefore : ∀ j x, j < k → ws[j]? = some x → x &&& 0xFF000000#32 = 0#32) :
    firstBadPixel ws = some k := by
  obtain ⟨hlt, rfl⟩ := List.getElem?_eq_some_iff.mp hk
  refine List.findIdx?_eq_some_iff_getElem.mpr ⟨hlt, ?_, fun j hj => ?_⟩
  · simpa [and_pixelMask_eq_zero] using hbad
  · have hgood := hbefore j _ hj (List.getElem?_eq_getElem (hj.trans hlt))
    simpa [and_pixelMask_eq_zero] using hgood

/-- The operand words of a whole ENC_CHAIN message are its pixel words (30_encoding.md R49). -/
theorem pixelWords_of_length {h : Word} {ops : List Word} (ho : opField h = 4) (hlen : (h :: ops).length = msgLen h) :
    pixelWords h ops = ops := by
  rw [msgLen_chain ho, List.length_cons] at hlen
  exact List.take_of_length_le (by omega)

/-- Settles O13: the header passes its checks, and `firstBadPixel_eq_some` gives the index that is reported. -/
theorem firstReservedPixelGivesRsvdPix : Obligations.FirstReservedPixelGivesRsvdPix := by
  intro s w h ops es k bad hw hin hm hlen hop hhdr hk hbad hbefore
  have ho : opField h = 4 := (opField_eq_toNat_iff h 0x4#4).mpr hop
  have hr : field h 26 24 = 0 := (and_fieldMask_eq_zero h _ 26 24 rfl).mp hhdr
  have hd : decodeMessage h ops = .error ⟨.rsvdPix, BitVec.ofNat 32 (k + 1)⟩ := by
    rw [decodeMessage_encChain ho, if_pos hr, pixelWords_of_length ho hlen, firstBadPixel_eq_some hk hbad hbefore]
  rw [step_message hw hin hm hlen, messageReply_of_error hd]

/-! ### The frame's buffer -/

/-- Settles O30: the response is by `exec_of_wf`, and its buffer is R72 spelled out. -/
theorem encChainAnswersFrame : Obligations.EncChainAnswersFrame := fun _ p px hw => exec_of_wf hw (.encChain p px)

theorem pad_length (cfg : Config) (p : Bool) : (pad cfg p).length = if p then cfg.padLen else 0 := by
  cases p with
  | false => rfl
  | true => exact List.length_replicate

/-- Settles O46, by the lengths of the pixels and of the padding and the bounds of WF1 and WF6. -/
theorem frameLength : Obligations.FrameLength := fun cfg p px hw =>
  ⟨by rw [encChain_length hw, pad_length], encChain_length_le hw p⟩

theorem encChain_false_append (cfg : Config) (xs ys : List Pixel) :
    encChain cfg false (xs ++ ys) = encChain cfg false xs ++ encChain cfg false ys := by
  simp [encChain]

/-- Settles O47: without padding a frame is a concatenation over its pixels, and the padding stands behind it. -/
theorem framesConcatenate : Obligations.FramesConcatenate := fun cfg xs ys =>
  ⟨rfl, rfl, encChain_false_append cfg xs ys, encChain_eq_append_pad cfg true xs, List.append_nil _⟩

/-! ### Offsets in a frame -/

/-- In a concatenation of pieces of `n` elements, element `n * k + r` is element `r` of piece `k`. -/
theorem getElem?_flatMap {α β : Type} {f : α → List β} {n : Nat} (hf : ∀ a, (f a).length = n) {l : List α} {k r : Nat}
    {a : α} (h : l[k]? = some a) (hr : r < n) : (l.flatMap f)[n * k + r]? = (f a)[r]? := by
  rw [← take_drop_flatMap hf h, List.getElem?_take_of_lt hr, List.getElem?_drop]

theorem bits_flatMap {α : Type} (f : α → Buffer) (l : List α) : bits (l.flatMap f) = l.flatMap fun a => bits (f a) :=
  List.flatMap_assoc

/-- The physical bits of a channel: its groups, each of one logical bit (R60). -/
theorem bits_encChan_getElem? (cfg : Config) (v : Byte) {j m : Nat} (hj : j < 8) (hm : m < cfg.n) :
    (bits (encChan cfg v))[cfg.n * j + m]? = some ((pattern cfg (v.getLsbD (7 - j))).getLsbD (cfg.n - 1 - m)) := by
  rw [bits_encChan, encChanBits_eq, getElem?_flatMap (fun _ => encBit_length cfg _) (List.getElem?_range hj) hm,
    encBit_getElem? cfg _ hm]

/-- The physical bits of a pixel: those of its channels in transmission order (R69). -/
theorem bits_encPix_getElem? (cfg : Config) (x : Pixel) {k r : Nat} {c : Channel} (hk : (seq cfg.order)[k]? = some c)
    (hr : r < 8 * cfg.n) : (bits (encPix cfg x))[8 * cfg.n * k + r]? = (bits (encChan cfg (sel x c)))[r]? := by
  rw [encPix, bits_flatMap]
  exact getElem?_flatMap (fun _ => by simp) (by rw [wire, List.getElem?_map, hk]; rfl) hr

/-- The physical bits of an unpadded frame: those of its pixels in chain order (R72). -/
theorem bits_encChain_false_getElem? {cfg : Config} (hw : cfg.WellFormed) {px : List Pixel} {i r : Nat} {x : Pixel}
    (hi : px[i]? = some x) (hr : r < 3 * (8 * cfg.n)) :
    (bits (encChain cfg false px))[3 * (8 * cfg.n) * i + r]? = (bits (encPix cfg x))[r]? := by
  rw [encChain, pad_false, List.append_nil, bits_flatMap]
  exact getElem?_flatMap (fun a => by rw [bits_length, encPix_length hw, Nat.mul_left_comm]) hi hr

/-- The same in a frame with or without padding, down to one physical bit of one logical bit. -/
theorem bits_encChain_getElem?_group {cfg : Config} (hw : cfg.WellFormed) (p : Bool) {px : List Pixel} {i k j m : Nat}
    {x : Pixel} {c : Channel} (hi : px[i]? = some x) (hk : (seq cfg.order)[k]? = some c) (hj : j < 8) (hm : m < cfg.n) :
    (bits (encChain cfg p px))[3 * (8 * cfg.n) * i + (8 * cfg.n * k + (cfg.n * j + m))]? =
      some ((pattern cfg ((sel x c).getLsbD (7 - j))).getLsbD (cfg.n - 1 - m)) := by
  have hk3 : k < 3 := seq_length hw ▸ (List.getElem?_eq_some_iff.mp hk).1
  have hgroup : cfg.n * j + m < 8 * cfg.n := Nat.mul_add_lt_mul_of_lt_of_lt hj hm
  have hchan : 8 * cfg.n * k + (cfg.n * j + m) < 3 * (8 * cfg.n) := Nat.mul_add_lt_mul_of_lt_of_lt hk3 hgroup
  have hbit := bits_encChan_getElem? cfg (sel x c) hj hm
  rw [← bits_encPix_getElem? cfg x hk hgroup, ← bits_encChain_false_getElem? hw hi hchan] at hbit
  rw [encChain_eq_append_pad, bits_append, List.getElem?_append_left (List.getElem?_eq_some_iff.mp hbit).1, hbit]

/-- The padding begins where the pixels end, after `3 * N * L` bytes. -/
theorem encChain_true_getElem?_pad {cfg : Config} (hw : cfg.WellFormed) (px : List Pixel) {q : Nat}
    (hq : q < cfg.padLen) : (encChain cfg true px)[3 * cfg.n * px.length + q]? = some 0#8 := by
  have hlen : (encChain cfg false px).length = 3 * cfg.n * px.length := encChain_length hw false px
  rw [encChain_eq_append_pad, ← hlen, List.getElem?_append_right (Nat.le_add_right _ _), Nat.add_sub_cancel_left]
  exact List.getElem?_replicate_of_lt hq

/-- Settles O48: the bits by `bits_encChain_getElem?_group`, the padding bytes by `encChain_true_getElem?_pad`. -/
theorem frameOffsets : Obligations.FrameOffsets := by
  intro cfg p px hw
  refine ⟨fun i x k c j m hi hk hj hm => ?_, fun hp q hq => hp ▸ encChain_true_getElem?_pad hw px hq⟩
  have hindex : 8 * (3 * cfg.n * i + cfg.n * k) + cfg.n * j + m =
      3 * (8 * cfg.n) * i + (8 * cfg.n * k + (cfg.n * j + m)) := by ring
  rw [hindex]
  exact bits_encChain_getElem?_group hw p hi hk hj hm

end Sys2Proof.Machine
end

section
/-! SUPPORT. Proofs about errors: a malformed message (60_exceptions.md R80) and two hosts on one port (R86). -/

namespace Sys2Proof.Machine

/-! ### A malformed message -/

/-- A stream answered with a command error begins with a whole message, which has that error. -/
theorem decodeMessage_of_decode_command {h : Word} {ws : List Word} {e : CmdError}
    (hd : decode (h :: ws) = .error (.command e)) : decodeMessage h ws = .error e := by
  rw [decode] at hd
  split at hd
  case isTrue => cases hd
  case isFalse =>
    cases hm : decodeMessage h ws with
    | ok i => rw [hm] at hd; cases hd
    | error e' => rw [hm] at hd; cases hd; rfl

/-- Settles O10: the word completes its message, and what the message is answered with is its error. -/
theorem malformedMessageIsAnswered : Obligations.MalformedMessageIsAnswered := by
  intro s w h ops es e hw hin hm hlen hd
  rw [hm] at hd
  rw [step_message hw hin hm hlen, messageReply_of_error (decodeMessage_of_decode_command hd)]

/-! ### Two hosts on one port -/

/-- No command is answered with an error (30_encoding.md R53). -/
theorem status_respondTo (cfg : Config) (i : Instr) : status (respondTo cfg i) = 0 := by
  cases i <;> rfl

/-- A host that sends well-formed commands alone gets no error, and its run ends complete. -/
theorem runAll_commands_noError {cfg : Config} (hw : cfg.WellFormed) {is : List Instr} (his : ∀ i ∈ is, i.WellFormed) :
    ∃ t, runAll (launch cfg (sends (is.flatMap encode))) = .next t ∧ NoError t ∧ Complete t := by
  obtain ⟨t, hrun, hresponses, hcomplete, -⟩ := commandsAnsweredInOrder cfg is hw his
  refine ⟨t, hrun, fun r hr => ?_, hcomplete⟩
  rw [hresponses] at hr
  obtain ⟨i, -, rfl⟩ := List.mem_map.mp hr
  exact status_respondTo cfg i

/-- A run of words whose first message has an error answers that error. -/
theorem runAll_answers_first_error {cfg : Config} (hw : cfg.WellFormed) {h : Word} {ops : List Word} {e : CmdError}
    (hlen : msgLen h = ops.length + 1) (hd : decodeMessage h ops = .error e) (rest : List Word) :
    ∃ t, runAll (launch cfg (sends (h :: ops ++ rest))) = .next t ∧ Response.err e.code e.info ∈ t.responses := by
  refine ⟨_, runAll_launch_sends hw _, ?_⟩
  have hobs := observation_afterWords_launch cfg (h :: ops ++ rest)
  rw [readWords_message cfg hlen, messageReply_of_error hd] at hobs
  obtain ⟨hresponses, -⟩ := Prod.mk.inj hobs
  rw [hresponses]
  exact List.mem_cons_self

/-- Settles O20: one host sends a chain of one black pixel, the other one bit. The other's word 0x10000001 comes between
the chain's header 0x40000001 and its pixel word, and is taken as the pixel word. -/
theorem sharedPortMixesMessages : Obligations.SharedPortMixesMessages := by
  intro cfg hw
  obtain ⟨t, hrunChain, hnoErrorChain, hcompleteChain⟩ :=
    runAll_commands_noError hw (is := [.encChain false [⟨0, 0, 0⟩]]) (by decide)
  obtain ⟨u, hrunBit, hnoErrorBit, hcompleteBit⟩ := runAll_commands_noError hw (is := [.encBit true]) (by decide)
  obtain ⟨v, hrunMixed, herr⟩ := runAll_answers_first_error hw (h := 0x40000001) (ops := [0x10000001])
    (e := ⟨.rsvdPix, 1⟩) (by decide) (by decide) [0x00000000]
  have hmerge : Merge (sends [0x40000001, 0x00000000]) (sends [0x10000001])
      (sends [0x40000001, 0x10000001, 0x00000000]) := .left _ _ _ _ (.right _ _ _ _ (.left _ _ _ _ .done))
  exact ⟨_, _, _, t, u, v, hmerge, hrunChain, hnoErrorChain, hcompleteChain, hrunBit, hnoErrorBit, hcompleteBit,
    hrunMixed, 1, herr⟩

end Sys2Proof.Machine
end

section
/-! SUPPORT. Proofs about waiting, resets and the end of runs (70_reset_and_hazards.md R91, R93, R95, R101, R105, R106). -/

namespace Sys2Proof.Machine

/-! ### The events that are no words -/

/-- Settles O14: the event is `resetPort`. -/
theorem resetEmptiesRx : Obligations.ResetEmptiesRx := by
  intro s es hw hin
  rw [step_of_wf hw, hin]
  rfl

/-- Settles O53: the event is `withTransportConfig`. -/
theorem transportSetupLeavesBlock : Obligations.TransportSetupLeavesBlock := by
  intro s c es hw hin
  rw [step_of_wf hw, hin]
  rfl

/-- Settles O17, by the case of the empty inbox in `step_of_wf`. -/
theorem idleStepChangesNothing : Obligations.IdleStepChangesNothing := by
  intro s hw hin
  rw [step_of_wf hw, hin]

theorem exists_step_next {s : State} (hw : s.cfg.WellFormed) : ∃ t, step s = .next t := by
  match hin : s.inbox with
  | [] => exact ⟨_, idleStepChangesNothing s hw hin⟩
  | .word _ :: _ => exact ⟨_, step_word hw hin⟩
  | .reset :: es => exact ⟨_, resetEmptiesRx s es hw hin⟩
  | .setupTransport c :: es => exact ⟨_, transportSetupLeavesBlock s c es hw hin⟩
  | .write buf :: es =>
    obtain ⟨_, hstep, -⟩ := transportWriteLeavesBlock s buf es hw hin
    exact ⟨_, hstep⟩

/-- Settles O22: each event has its next state, and each command its response. -/
theorem wellFormedNeverStops : Obligations.WellFormedNeverStops := fun _ hw =>
  ⟨exists_step_next hw, fun i => ⟨_, exec_of_wf hw i⟩⟩

/-! ### The machine after reset -/

/-- Settles O35: the fixture meets all six checks, and rx and the responses are empty. -/
theorem resetMeetsInvariant : Obligations.ResetMeetsInvariant := by
  have hfixture : Config.fixture.WellFormed := Config.firstFailed_eq_none.mp (by decide)
  exact ⟨⟨hfixture, rfl⟩, hfixture, trivial, List.forall_mem_nil _⟩

/-! ### A message that is begun and not completed -/

/-- A machine with nothing to come waits unchanged for any number of steps (log 5). -/
theorem runSteps_idle {s : State} (hw : s.cfg.WellFormed) (hin : s.inbox = []) (k : Nat) : runSteps k s = .next s := by
  induction k with
  | zero => rfl
  | succ k ih => exact runSteps_succ_next.mpr ⟨s, idleStepChangesNothing s hw hin, ih⟩

/-- The words of a proper beginning of a message are added to rx, and nothing is answered. -/
theorem State.afterWords_held {s : State} {ws : List Word} (hok : RxOk (s.rx ++ ws)) (es : List Event) :
    s.afterWords ws es = { s with inbox := es, rx := s.rx ++ ws } := by
  have hread : readWords s.cfg s.rx ws = ([], s.rx ++ ws) := by
    simpa [readWords] using readWords_held s.cfg hok []
  simp [State.afterWords, hread]

/-- The run of such words. -/
theorem runSteps_held {s : State} {ws : List Word} {es : List Event} (hw : s.cfg.WellFormed)
    (hin : s.inbox = sends ws ++ es) (hok : RxOk (s.rx ++ ws)) :
    runSteps ws.length s = .next { s with inbox := es, rx := s.rx ++ ws } := by
  rw [runSteps_words hw hin, State.afterWords_held hok]

/-- Settles O16: the words are held, and the idle steps after them change nothing. -/
theorem beginningOfMessageIsStuck : Obligations.BeginningOfMessageIsStuck := by
  intro cfg h ops k hw hlen
  have hheld := runSteps_held (s := launch cfg (sends (h :: ops))) hw (List.append_nil _).symm hlen
  exact ⟨_, (runSteps_add hheld).trans (runSteps_idle hw rfl k), rfl, List.cons_ne_nil h ops⟩

/-- Words of an incomplete message and a reset, in a run: only rx is affected, and it ends empty. -/
theorem runSteps_held_reset {s : State} {ws : List Word} {es : List Event} (hw : s.cfg.WellFormed)
    (hin : s.inbox = sends ws ++ .reset :: es) (hok : RxOk (s.rx ++ ws)) :
    runSteps (ws.length + 1) s = .next { s with inbox := es, rx := [] } := by
  rw [runSteps_add (runSteps_held hw hin hok)]
  exact runSteps_succ_next.mpr ⟨_, resetEmptiesRx _ es hw rfl, rfl⟩

/-- Settles O15: between messages rx is empty, as it is after the words and the reset. -/
theorem cutMessageLeavesNoTrace : Obligations.CutMessageLeavesNoTrace := by
  intro s ws es hw hrx hok
  have hcut := runSteps_held_reset (s := { s with inbox := sends ws ++ .reset :: es }) hw rfl (by rwa [hrx])
  have hlen : (sends ws ++ .reset :: es).length = ws.length + 1 + es.length := by
    simp only [sends, List.length_append, List.length_map, List.length_cons]
    omega
  calc runAll { s with inbox := sends ws ++ .reset :: es }
      = runSteps (ws.length + 1 + es.length) { s with inbox := sends ws ++ .reset :: es } := by rw [runAll, hlen]
    _ = runSteps es.length { s with inbox := es, rx := [] } := runSteps_add hcut
    _ = runAll { s with inbox := es } := by rw [← hrx]; rfl

end Sys2Proof.Machine
end

section
/-! SUPPORT. Proofs about times on the line (70_reset_and_hazards.md R102, R103). -/

namespace Sys2Proof.Machine

/-- A buffer occupies one bus-clock period per bit, if the transport inserts no gap (20_memory.md R36, log 23). -/
theorem lineOf_length (buf : Buffer) : (lineOf buf).length = linePeriods buf := by
  rw [lineOf, List.length_map, bits_length, linePeriods]

theorem linePeriods_encPix {cfg : Config} (hw : cfg.WellFormed) (x : Pixel) :
    linePeriods (encPix cfg x) = pixelPeriods cfg := by
  rw [linePeriods, encPix_length hw, pixelPeriods]
  omega

theorem linePeriods_encChain_true {cfg : Config} (hw : cfg.WellFormed) (px : List Pixel) :
    linePeriods (encChain cfg true px) = framePeriods cfg px.length := by
  rw [linePeriods, encChain_length hw, pad_length, if_pos rfl, framePeriods]

/-- Settles O50: the line of a buffer is as long as its bits, and the lengths of the buffers are known. -/
theorem lineTimes : Obligations.LineTimes := fun cfg px x b buf hw =>
  ⟨lineOf_length buf, encBit_length cfg b, (lineOf_length _).trans (linePeriods_encPix hw x),
    (lineOf_length _).trans (linePeriods_encChain_true hw px)⟩

/-- Settles O51: a whole number of bytes is enough exactly when it is no less than the quotient rounded up. -/
theorem paddingSizeForLatch : Obligations.PaddingSizeForLatch := by
  intro cfg tReset fBus
  rw [PaddingMeetsLatch, Nat.ceil_le, div_le_iff₀' (by norm_num : (0 : ℚ) < 8)]

end Sys2Proof.Machine
end
